-- ==== Sys2Proof/Word.lean ====
section
/-! DEFINITION. The bit-vector types of the spec: command words, the byte operand, status and data of a response. -/

namespace Sys2Proof

/-- A command word `CMD[15:0]` (30_encoding R70). -/
abbrev CmdWord := BitVec 16

/-- The operand `IMM8` (30_encoding R73). -/
abbrev Byte := BitVec 8

/-- `DATA[31:0]` of a response, and `BIT_LENGTH[31:0]` of a construction record (30_encoding R77, R78). -/
abbrev Data := BitVec 32

end Sys2Proof
end

