-- ==== Sys2Proof/Syntax.lean ====
section
/-! DEFINITION. What the host sends, what it gets back, and what the engine writes: lines, write events, the six
commands, construction records, responses, and the assembler's statements. -/

namespace Sys2Proof

/-- The four output lines (00_scope R14). -/
inductive Line where
  | ser | clk | lat | oe
deriving DecidableEq, Repr, Inhabited

/-- The two variants of an Output Line (40_output_line R95). -/
inductive LineVariant where
  /-- (a) The hardware line, which drives the physical pin. -/
  | hardware
  /-- (b) The recording fake, which drives nothing and records every write. -/
  | recordingFake
deriving DecidableEq, Repr

/-- One thing for each of the four lines. -/
structure PerLine (α : Type) where
  ser : α
  clk : α
  lat : α
  oe : α
deriving DecidableEq, Repr

/-- A write event `(L, v)`: logical value `value` written to `line` (10_state R29). -/
structure Event where
  line : Line
  value : Bool
deriving DecidableEq, Repr

/-- The commands: one constructor per row of spec/opcode_table.json (30_encoding R72). -/
inductive Instr where
  /-- `SHIFT_BIT value` (41_shift R110); `value` is F. -/
  | shiftBit (value : Bool)
  /-- `SHIFT_BYTE value, latch` (41_shift R112); `latch` is F and `value` is IMM8. -/
  | shiftByte (latch : Bool) (value : Byte)
  /-- `SHIFT_CLEAR` (41_shift R114). -/
  | shiftClear
  /-- `LATCH` (42_latch_output R130). -/
  | latch
  /-- `ENABLE_OUTPUT value` (42_latch_output R131); `value` is F. -/
  | enableOutput (value : Bool)
  /-- `GET_BIT_LENGTH` (43_status R140). -/
  | getBitLength
deriving DecidableEq, Repr

/-- A construction record (30_encoding R77): `PRESENT[3:0]` (bit 0 SER, 1 CLK, 2 LAT, 3 OE) and `BIT_LENGTH[31:0]`. The
line handles are the line records of `State.line` (log 15). -/
structure ConstructRecord where
  present : BitVec 4
  bitLength : Data
deriving DecidableEq, Repr

/-- A move of the host (60_exceptions R166): a construction, or one command word, legal or not. -/
inductive HostMove where
  | construct (record : ConstructRecord)
  | command (word : CmdWord)
deriving DecidableEq, Repr

/-- The statuses a response can carry (30_encoding R78); codes 6 to 15 are never produced. -/
inductive Status where
  | ok | configMissingLine | configNotByteAligned | illegalCommand | lineWriteFailed | notConstructed
deriving DecidableEq, Repr

/-- A response (30_encoding R78). -/
structure Response where
  status : Status
  data : Data
deriving DecidableEq, Repr

/-- One parallel output of the device: high impedance, or a Boolean (60_exceptions R168). -/
inductive Output where
  | z
  | driven (value : Bool)
deriving DecidableEq, Repr, Inhabited

/-- An assembler statement (30_encoding R80, R81). An immediate is a number not yet checked against 0..255. -/
inductive AsmLine where
  | shiftBit (value : Bool)
  | shiftByte (imm : Nat) (latch : Option Bool)
  | shiftClear
  | latch
  | enableOutput (value : Bool)
  | getBitLength
  | shiftChain (imms : List Nat)
  | outputsOn
  | outputsOff
deriving DecidableEq, Repr

end Sys2Proof
end

