-- ==== Sys2Proof/Config.lean ====
section
/-! DEFINITION. The parameters of 00_scope R10 as one record that State holds, their values at reset, and the free values
that stand for the spec's "any value". -/

namespace Sys2Proof

/-- The parameters of 00_scope R10 that are neither the construction record's nor a line's own. No step changes them. -/
structure Params where
  /-- `BIT_LENGTH_MAX`, at most 2^32 - 1 by its width (D9). -/
  bitLengthMax : Data
  /-- `LINE_WRITE_CAN_FAIL` (40_output_line R94, D14). -/
  lineWriteCanFail : Bool
  /-- `IO_DEFERRED` (40_output_line R93, D28). -/
  ioDeferred : Bool
  /-- `DEV_LEN`, the real length of the attached chain (60_exceptions R169, D16). -/
  devLen : Nat
  /-- The host platform keeps every write long enough for the device (70_reset_and_hazards R206, 60_exceptions R171(c)). -/
  latencyAdequate : Bool
deriving DecidableEq, Repr

/-- DESIGN CHOICE (log 3), unsafe: the parameters `State.reset` stands with. LINE_WRITE_CAN_FAIL is the spec's own value
for the reference line; the spec leaves the others OPEN, and the claims quantify over them. -/
def Params.reference : Params :=
  { bitLengthMax := 0xFFFFFFFF#32, lineWriteCanFail := false, ioDeferred := false, devLen := 8, latencyAdequate := true }

/-- Free value (log 7): the level a failed write leaves on its line (60_exceptions R155), by draw. -/
opaque Config.freeLevel : Nat → Bool

/-- Free value (log 7): a bit of the shift stage wherever the spec says "any value", by draw and position. -/
opaque Config.freeStage : Nat → Nat → Bool

/-- Free value (log 7): a bit of the output stage wherever the spec says "any value", by draw and position. -/
opaque Config.freeOut : Nat → Nat → Bool

/-- Free value (log 7): a parallel output wherever the spec says "any value", by draw and position. -/
opaque Config.freeOutput : Nat → Nat → Output

end Sys2Proof
end

