-- ==== Sys2Proof/WellFormed.lean ====
section
/-! DEFINITION. The checks on data the host or the assembler supplies. Every term of `Instr` is well formed: its fields
hold exactly the operands the command word can carry (30_encoding R73), so the checks stand where ill-formed data exists. -/

namespace Sys2Proof

/-- Every term of `Instr` is a command with an encoding (30_encoding R73: a byte outside 0..255 cannot be written down). -/
def Instr.wf (_ : Instr) : Bool := true

/-- The limits of 00_scope R10: BIT_LENGTH_MAX is at least 8 and DEV_LEN is positive. -/
def Params.wf (p : Params) : Bool := decide (8 ≤ p.bitLengthMax.toNat) && decide (0 < p.devLen)

/-- A record that construction neither refuses nor answers with an error (60_exceptions R151, R156). -/
def ConstructRecord.wf (p : Params) (r : ConstructRecord) : Bool :=
  decide (0 < r.bitLength.toNat) && decide (r.bitLength.toNat ≤ p.bitLengthMax.toNat)
    && r.present.getLsbD 0 && r.present.getLsbD 1 && r.present.getLsbD 2

/-- An immediate of the assembler is in 0..255 (30_encoding R80). -/
def immFits (n : Nat) : Bool := decide (n ≤ 255)

/-- What the assembler accepts (30_encoding R80, R81: immediates in 0..255, a chain has at least one byte). -/
def AsmLine.wf : AsmLine → Bool
  | .shiftBit _ => true
  | .shiftByte imm _ => immFits imm
  | .shiftClear => true
  | .latch => true
  | .enableOutput _ => true
  | .getBitLength => true
  | .shiftChain imms => !imms.isEmpty && imms.all immFits
  | .outputsOn => true
  | .outputsOff => true

end Sys2Proof
end

