-- ==== Sys2Proof/Decode.lean ====
section
/-! DEFINITION. Decoding a command word, total on all 65536 of them, then the encoder, and the encodings of lines, write
events and statuses (30_encoding). -/

namespace Sys2Proof

/-- Why a word is illegal: the three cases of 30_encoding R74. -/
inductive IllegalReason where
  /-- (a) the opcode is unassigned. -/
  | unassignedOpcode
  /-- (b) RSV is not 0. -/
  | reservedNotZero
  /-- (c) a field the format wants 0 is not. -/
  | fieldNotZero
deriving DecidableEq, Repr

/-- What decoding a word gives. -/
inductive Decoded where
  | instr (i : Instr)
  | illegal (why : IllegalReason)
deriving DecidableEq, Repr

/-- `OP = CMD[15:12]` (30_encoding R70). -/
def opField (w : CmdWord) : BitVec 4 := w.extractLsb' 12 4

/-- `RSV = CMD[11:9]` (30_encoding R70). -/
def rsvField (w : CmdWord) : BitVec 3 := w.extractLsb' 9 3

/-- `F = CMD[8]` as a Boolean (30_encoding R70, R73). -/
def flagField (w : CmdWord) : Bool := w.getLsbD 8

/-- `IMM8 = CMD[7:0]` (30_encoding R70, R73). -/
def immField (w : CmdWord) : Byte := w.extractLsb' 0 8

/-- Format N (30_encoding R71): F and IMM8 must be 0. -/
def decodeN (w : CmdWord) (i : Instr) : Decoded :=
  if flagField w = false ∧ immField w = 0#8 then .instr i else .illegal .fieldNotZero

/-- Format F (30_encoding R71): F is the operand and IMM8 must be 0. -/
def decodeF (w : CmdWord) (i : Bool → Instr) : Decoded :=
  if immField w = 0#8 then .instr (i (flagField w)) else .illegal .fieldNotZero

/-- The opcode map (30_encoding R72), for a word whose RSV is 0. -/
def decodeOp (w : CmdWord) : Decoded :=
  match (opField w).toNat with
  | 1 => decodeF w .shiftBit
  | 2 => .instr (.shiftByte (flagField w) (immField w))
  | 3 => decodeN w .shiftClear
  | 4 => decodeN w .latch
  | 5 => decodeF w .enableOutput
  | 6 => decodeN w .getBitLength
  | _ => .illegal .unassignedOpcode

/-- Decoding, total (30_encoding R74, R75). -/
def decode (w : CmdWord) : Decoded :=
  if rsvField w = 0#3 then decodeOp w else .illegal .reservedNotZero

/-- The word `{OP, 000, F, IMM8}` (30_encoding R80). -/
def commandWord (op : BitVec 4) (flag : Bool) (imm : Byte) : CmdWord :=
  op ++ 0#3 ++ BitVec.ofBool flag ++ imm

/-- The command word of an instruction (30_encoding R72). -/
def encode : Instr → CmdWord
  | .shiftBit value => commandWord 0x1#4 value 0#8
  | .shiftByte latch value => commandWord 0x2#4 latch value
  | .shiftClear => commandWord 0x3#4 false 0#8
  | .latch => commandWord 0x4#4 false 0#8
  | .enableOutput value => commandWord 0x5#4 value 0#8
  | .getBitLength => commandWord 0x6#4 false 0#8

/-- The low `nbits` bits of `w` as one number, bits above them 0: the one word of an instruction (30_encoding R76). -/
def tableBits (nbits w : Nat) : Nat := w % 2 ^ nbits

/-- The instruction the decoder reads from a word given as the opcode table numbers its bits. A command is exactly one
16-bit word (30_encoding R76), so anything wider is none. -/
def decodeTableWord (nbits w : Nat) : Option Instr :=
  if tableBits nbits w < 65536 then
    match decode (BitVec.ofNat 16 (tableBits nbits w)) with
    | .instr i => some i
    | .illegal _ => none
  else none

/-- The index of a line (30_encoding R79). -/
def lineIndex : Line → BitVec 2
  | .ser => 0#2
  | .clk => 1#2
  | .lat => 2#2
  | .oe => 3#2

/-- `EVT[2:0] = {LINE[1:0], V}` (30_encoding R79). -/
def eventCode (e : Event) : BitVec 3 := lineIndex e.line ++ BitVec.ofBool e.value

/-- `STATUS[3:0]` (30_encoding R78). -/
def statusCode : Status → BitVec 4
  | .ok => 0#4
  | .configMissingLine => 1#4
  | .configNotByteAligned => 2#4
  | .illegalCommand => 3#4
  | .lineWriteFailed => 4#4
  | .notConstructed => 5#4

end Sys2Proof
end

