-- ==== Sys2Proof/Machine/State.lean ====
section
/-! DEFINITION. The state of the machine, its stops, and the state at reset. -/

namespace Sys2Proof.Machine

/-- What an output line holds (10_state R26, R27). -/
structure LineState where
  /-- `pin_id[L]`, opaque; no rule reads it. -/
  pinId : Nat
  /-- `active_high[L]`, the polarity, fixed for the line's life. -/
  activeHigh : Bool
  /-- Which variant the line is, fixed for the line's life (40_output_line R95). -/
  variant : LineVariant
  /-- `lvl[L]`; `none` is the spec's ⊥. -/
  lvl : Option Bool
  /-- The physical level on the pin as landed (40_output_line R93); `none` before any write has landed. The pin of a
  recording fake is driven by no write (R95). -/
  pin : Option Bool
deriving DecidableEq, Repr

/-- The configuration record `cfg` (10_state R22, R23). -/
structure EngineConfig where
  present : PerLine Bool
  bitLength : Data
deriving DecidableEq, Repr

/-- The reference observer of the attached device (60_exceptions R168), position 0 first in each list. -/
structure Device where
  /-- `S`, the shift stage. -/
  stage : List Bool
  /-- `Q`, the output stage. -/
  out : List Bool
  /-- `Y`, the parallel outputs. -/
  outputs : List Output
  /-- `some k` after a failed write (60_exceptions R178): `k` clock edges since then; `none` when re-established (log 10). -/
  unsettled : Option Nat
deriving DecidableEq, Repr

/-- A level on its way to a pin (10_state R35(c)). -/
structure QueuedWrite where
  line : Line
  level : Bool
deriving DecidableEq, Repr

/-- Every piece of state the spec gives the machine (10_state R20 to R32, 60_exceptions R168), with the parameters of
00_scope R10, the inputs, and the model's own counter. -/
structure State where
  /-- The parameters (00_scope R10). -/
  par : Params
  /-- `constructed` (10_state R21). -/
  constructed : Bool
  /-- `cfg` (10_state R22, R23). -/
  cfg : EngineConfig
  /-- The four output lines (10_state R26). -/
  line : PerLine LineState
  /-- `trace`, oldest event first (10_state R29). -/
  trace : List Event
  /-- Writes issued and not yet landed, oldest first (10_state R35(c)). -/
  queue : List QueuedWrite
  /-- The reference observer (60_exceptions R168). -/
  dev : Device
  /-- The host's remaining moves, next first; its command words are `prog[hpc..]` (10_state R32, 60_exceptions R166). -/
  pending : List HostMove
  /-- `hpc`, the commands that have ended (10_state R32). -/
  hpc : Nat
  /-- The responses the host has received, oldest first (30_encoding R78; the host's record, log 6). -/
  responses : List Response
  /-- Input: the lines' reports to the coming writes, true for a failure (60_exceptions R155, log 8). -/
  lineReports : List Bool
  /-- Input: how many queued writes the coming scheduler ticks land (40_output_line R93, log 11). -/
  ticks : List Nat
  /-- The number of the next free value (log 7); the model's own. -/
  draws : Nat
deriving DecidableEq, Repr

/-- Why a step faults. -/
inductive Fault where
  /-- Raised by `step` when the host has no move left: the run has ended (10_state R32) and there is no step. Safe. -/
  | endOfRun
deriving DecidableEq, Repr

/-- Why a step is refused. -/
inductive Refusal where
  /-- Raised only by an arm of `exec` that has no meaning yet. Safe. -/
  | notModelled (mnemonic : String)
  /-- Raised by `construct` for BIT_LENGTH 0 or above BIT_LENGTH_MAX: "A refused record has no step"
  (60_exceptions R156). Safe. -/
  | bitLengthOutOfRange
deriving DecidableEq, Repr

/-- A line before its first write (10_state R26, 70_reset_and_hazards R203). -/
def LineState.powerUp (pinId : Nat) (activeHigh : Bool) (variant : LineVariant) : LineState :=
  { pinId := pinId, activeHigh := activeHigh, variant := variant, lvl := none, pin := none }

/-- The device at power-up (60_exceptions R177, 70_reset_and_hazards R203): S, Q and Y are any value. -/
def Device.powerUp (devLen : Nat) : Device :=
  { stage := (List.range devLen).map (Config.freeStage 0)
    out := (List.range devLen).map (Config.freeOut 0)
    outputs := (List.range devLen).map (Config.freeOutput 0)
    unsettled := none }

/-- The state at power-up (70_reset_and_hazards R203) for any parameters, pin identifiers, polarities and line variants.
`cfg` is unspecified there: zeros, DESIGN CHOICE (log 2). -/
def State.powerUp (p : Params) (pinIds : PerLine Nat) (activeHigh : PerLine Bool) (variant : PerLine LineVariant) :
    State :=
  { par := p
    constructed := false
    cfg := { present := { ser := false, clk := false, lat := false, oe := false }, bitLength := 0#32 }
    line := { ser := LineState.powerUp pinIds.ser activeHigh.ser variant.ser
              clk := LineState.powerUp pinIds.clk activeHigh.clk variant.clk
              lat := LineState.powerUp pinIds.lat activeHigh.lat variant.lat
              oe := LineState.powerUp pinIds.oe activeHigh.oe variant.oe }
    trace := []
    queue := []
    dev := Device.powerUp p.devLen
    pending := []
    hpc := 0
    responses := []
    lineReports := []
    ticks := []
    draws := 1 }

/-- The machine right after reset: power-up under the reference wiring of 95_test_vectors, on hardware lines (log 1,
log 3). -/
def State.reset : State :=
  State.powerUp Params.reference { ser := 0, clk := 1, lat := 2, oe := 3 }
    { ser := true, clk := true, lat := true, oe := true }
    { ser := .hardware, clk := .hardware, lat := .hardware, oe := .hardware }

end Sys2Proof.Machine
end

