-- ==== Sys2Proof/Machine/Flags.lean ====
section
/-! DEFINITION. The engine has no flags (10_state R33). What decides a response's status and data instead: the range check,
the mask of missing lines, the alignment check, and the data of a failed write. -/

namespace Sys2Proof.Machine

/-- `1 <= BIT_LENGTH <= BIT_LENGTH_MAX` (70_reset_and_hazards R200, 60_exceptions R156). -/
def lengthInRange (max n : Data) : Bool := decide (n.toNat ≠ 0) && decide (n.toNat ≤ max.toNat)

/-- `MISSING[2:0]`: the complement of PRESENT bit by bit (60_exceptions R151). -/
def missingMask (present : BitVec 4) : BitVec 3 := ~~~(present.setWidth 3)

/-- `N % 8 == 0` (41_shift R114). -/
def byteAligned (n : Data) : Bool := n.toNat % 8 == 0

/-- `{L index, v}` of the failing write, zero-extended (30_encoding R78). -/
def failureData (e : Event) : Data := (eventCode e).setWidth 32

end Sys2Proof.Machine
end

