-- ==== Sys2Proof/Machine/Observer.lean ====
section
/-! DEFINITION. The reference observer of the attached device (60_exceptions R167 to R178): how S, Q and Y follow one
write. No engine rule reads it. -/

namespace Sys2Proof

/-- The entry of a line. -/
def PerLine.get {α : Type} (p : PerLine α) : Line → α
  | .ser => p.ser
  | .clk => p.clk
  | .lat => p.lat
  | .oe => p.oe

/-- The entries with that of one line replaced. -/
def PerLine.set {α : Type} (p : PerLine α) (l : Line) (x : α) : PerLine α :=
  match l with
  | .ser => { p with ser := x }
  | .clk => { p with clk := x }
  | .lat => { p with lat := x }
  | .oe => { p with oe := x }

end Sys2Proof

namespace Sys2Proof.Machine

/-- `lvl[L]` (10_state R26). -/
def level (s : State) (l : Line) : Option Bool := (s.line.get l).lvl

/-- Any value for the shift stage, by draw (60_exceptions R155, R171, R175). -/
def anyStage (s : State) : List Bool := (List.range s.par.devLen).map (Config.freeStage s.draws)

/-- Any value for the output stage, by draw. -/
def anyOut (s : State) : List Bool := (List.range s.par.devLen).map (Config.freeOut s.draws)

/-- Any value for the parallel outputs, by draw. -/
def anyOutputs (s : State) : List Output := (List.range s.par.devLen).map (Config.freeOutput s.draws)

/-- The conditions (a) and (c) of 60_exceptions R171. Condition (b) is 20_memory R61, which the model assumes with the spec
(log 13); condition (d) is `Device.unsettled`. The observer follows the levels of lines of either variant (R168, R170). -/
def observerApplies (s : State) : Bool :=
  s.par.latencyAdequate && s.line.ser.activeHigh && s.line.clk.activeHigh && s.line.lat.activeHigh
    && (!s.cfg.present.oe || s.line.oe.activeHigh)

/-- A clock rising edge (60_exceptions R172): a write of true to CLK at level false. -/
def clockEdge (e : Event) (prev : Option Bool) : Bool := decide (e = ⟨.clk, true⟩) && decide (prev = some false)

/-- A latch rising edge (60_exceptions R173). -/
def latchEdge (e : Event) (prev : Option Bool) : Bool := decide (e = ⟨.lat, true⟩) && decide (prev = some false)

/-- S after one shift with `b` entering at position 0 (60_exceptions R172). -/
def shiftStage (devLen : Nat) (b : Bool) (stage : List Bool) : List Bool := (b :: stage).take devLen

/-- The bit a clock edge shifts in: `lvl[SER]`, or any value at ⊥ (60_exceptions R172). -/
def incomingBit (s : State) : Bool := (s.line.ser.lvl).getD (Config.freeStage s.draws 0)

/-- S after a write to a line whose level was `prev` (60_exceptions R172, R174, R175). -/
def stageAfter (e : Event) (prev : Option Bool) (s : State) : List Bool :=
  if clockEdge e prev then shiftStage s.par.devLen (incomingBit s) s.dev.stage
  else if e = ⟨.clk, true⟩ ∧ prev = none then anyStage s
  else s.dev.stage

/-- Q after a write (60_exceptions R173, R174, R175). -/
def outAfter (e : Event) (prev : Option Bool) (s : State) : List Bool :=
  if latchEdge e prev then s.dev.stage
  else if e = ⟨.lat, true⟩ ∧ prev = none then anyOut s
  else s.dev.out

/-- Y for output stage `out` (60_exceptions R176). -/
def outputsFor (out : List Bool) (s : State) : List Output :=
  if s.cfg.present.oe then
    match s.line.oe.lvl with
    | some true => List.replicate out.length .z
    | some false => out.map .driven
    | none => anyOutputs s
  else out.map .driven

/-- The clock edges since the failed write after one more write (60_exceptions R178, log 10). -/
def edgesAfter (e : Event) (prev : Option Bool) (k : Nat) : Nat :=
  if clockEdge e prev then k + 1 else if e = ⟨.clk, true⟩ ∧ prev = none then 0 else k

/-- The device after a write that did not fail, with no failed write outstanding (60_exceptions R172 to R176). -/
def settledDevice (e : Event) (prev : Option Bool) (s : State) : Device :=
  { stage := stageAfter e prev s
    out := outAfter e prev s
    outputs := outputsFor (outAfter e prev s) s
    unsettled := none }

/-- The device after a write that did not fail while a failed write is outstanding (60_exceptions R178, log 10): only the
positions shifted in since the failure are known, until `devLen` of them and a latch edge re-establish the device. -/
def unsettledDevice (k : Nat) (e : Event) (prev : Option Bool) (s : State) : Device :=
  if latchEdge e prev ∧ s.par.devLen ≤ k then settledDevice e prev s
  else
    { stage := (stageAfter e prev s).take (edgesAfter e prev k) ++ (anyStage s).drop (edgesAfter e prev k)
      out := anyOut s
      outputs := anyOutputs s
      unsettled := some (edgesAfter e prev k) }

/-- The device when S, Q and Y are any value (60_exceptions R155, R171). -/
def anyDevice (unsettled : Option Nat) (s : State) : Device :=
  { stage := anyStage s, out := anyOut s, outputs := anyOutputs s, unsettled := unsettled }

/-- The count of `Device.unsettled` after a write outside the observer's conditions, which leaves every bit at any value:
it starts again. DESIGN CHOICE (log 10): 60_exceptions R178 does not say what re-establishes the device then. -/
def forgetEdges (unsettled : Option Nat) : Option Nat := unsettled.map (fun _ => 0)

/-- The device after a write that did not fail; `s` already holds the written level (40_output_line R91). -/
def observe (e : Event) (prev : Option Bool) (s : State) : Device :=
  if observerApplies s then
    match s.dev.unsettled with
    | none => settledDevice e prev s
    | some k => unsettledDevice k e prev s
  else anyDevice (forgetEdges s.dev.unsettled) s

/-- The device after a failed write (60_exceptions R155). -/
def observeFailure (s : State) : Device := anyDevice (some 0) s

end Sys2Proof.Machine
end

