-- ==== Sys2Proof/Machine/Operands.lean ====
section
/-! DEFINITION. From a command's operands to its ordered write list (41_shift, 42_latch_output, 70_reset_and_hazards). -/

namespace Sys2Proof.Machine

/-- `BIT(v)`: the four writes of SHIFT_BIT (41_shift R110). -/
def bitWrites (v : Bool) : List Event := [⟨.ser, v⟩, ⟨.clk, true⟩, ⟨.ser, false⟩, ⟨.clk, false⟩]

/-- `PULSE_LAT`: the two writes of LATCH (42_latch_output R130). -/
def pulseLat : List Event := [⟨.lat, true⟩, ⟨.lat, false⟩]

/-- `((0x80 >> i) & value) != 0` (41_shift R112). -/
def byteBit (value : Byte) (i : Nat) : Bool := ((0x80#8 >>> i) &&& value) != 0#8

/-- The values of the eight bits in the order they are shifted (41_shift R112). -/
def byteBits (value : Byte) : List Bool := (List.range 8).map (byteBit value)

/-- The writes of SHIFT_BYTE (41_shift R112). -/
def byteWrites (latch : Bool) (value : Byte) : List Event :=
  (byteBits value).flatMap bitWrites ++ (if latch then pulseLat else [])

/-- The writes of SHIFT_CLEAR on a chain of `n` bits: `n / 8` latched zero bytes (41_shift R114). -/
def clearWrites (n : Nat) : List Event := (List.replicate (n / 8) (byteWrites true 0#8)).flatten

/-- The writes of ENABLE_OUTPUT: one if OE is present, none if absent (42_latch_output R131). -/
def enableWrites (oePresent value : Bool) : List Event := if oePresent then [⟨.oe, value⟩] else []

/-- The writes of construction, in the order of 70_reset_and_hazards R200. -/
def constructWrites (oePresent : Bool) : List Event :=
  [⟨.ser, false⟩, ⟨.lat, false⟩, ⟨.clk, false⟩] ++ (if oePresent then [⟨.oe, true⟩] else [])

/-- `PRESENT[3:0]` line by line (30_encoding R77). -/
def presentLines (p : BitVec 4) : PerLine Bool :=
  { ser := p.getLsbD 0, clk := p.getLsbD 1, lat := p.getLsbD 2, oe := p.getLsbD 3 }

end Sys2Proof.Machine
end

