-- ==== Sys2Proof/Machine/Ops.lean ====
section
/-! DEFINITION. The shared operations: one line write, a list of them, the response that ends every command, and the
error response, which is all that "taking an exception" is on this hardware (60_exceptions R157). -/

namespace Sys2Proof.Machine

/-- What an operation of this machine answers. -/
abbrev Result := Host.Outcome State Fault Refusal

/-- `phys[L] = lvl[L] XOR (NOT active_high[L])`, and ⊥ at ⊥ (10_state R27). -/
def physLevel (activeHigh v : Bool) : Bool := v ^^ !activeHigh

/-- `phys[L]` (10_state R27). -/
def phys (s : State) (l : Line) : Option Bool := (level s l).map (physLevel (s.line.get l).activeHigh)

/-- `lvl[L] <- v` (40_output_line R91). -/
def setLevel (l : Line) (v : Bool) (s : State) : State :=
  { s with line := s.line.set l { s.line.get l with lvl := some v } }

/-- A level lands on its pin (40_output_line R91: `phys[L] <- v XOR (NOT active_high[L])`). -/
def landWrite (s : State) (q : QueuedWrite) : State :=
  { s with
    line := s.line.set q.line { s.line.get q.line with pin := some (physLevel (s.line.get q.line).activeHigh q.level) } }

/-- The physical side of a hardware line's write (40_output_line R93): at once, or queued behind the writes already
waiting. -/
def driveHardware (l : Line) (v : Bool) (s : State) : State :=
  if s.par.ioDeferred then { s with queue := s.queue ++ [⟨l, v⟩] } else landWrite s ⟨l, v⟩

/-- The physical side of a write, by the line's variant: a recording fake drives nothing (40_output_line R95). -/
def drivePin (l : Line) (v : Bool) (s : State) : State :=
  match (s.line.get l).variant with
  | .hardware => driveHardware l v s
  | .recordingFake => s

/-- `trace <- trace ++ [(L, v)]` (40_output_line R91). -/
def record (e : Event) (s : State) : State := { s with trace := s.trace ++ [e] }

/-- The record of one line, in issue order: `trace` is the four records merged (40_output_line R95). -/
def lineRecord (l : Line) (trace : List Event) : List Event := trace.filter (fun e => e.line = l)

/-- Whether the line reports the coming write as failed (60_exceptions R155); never when LINE_WRITE_CAN_FAIL is false. -/
def writeFails (s : State) : Bool := s.par.lineWriteCanFail && s.lineReports.headD false

/-- The level the coming write of `v` leaves: `v`, or any value when it fails (60_exceptions R155). -/
def writtenLevel (v : Bool) (s : State) : Bool := if writeFails s then Config.freeLevel s.draws else v

/-- The line side of a write: level, pin and trace (40_output_line R91; for a failed write 60_exceptions R155 and log 9). -/
def writeLine (e : Event) (s : State) : State :=
  record e (drivePin e.line (writtenLevel e.value s) (setLevel e.line (writtenLevel e.value s) s))

/-- The attached device sees the write, with the level before it (40_output_line R91). -/
def writeDevice (e : Event) (prev : Option Bool) (failed : Bool) (s : State) : State :=
  { s with dev := if failed then observeFailure s else observe e prev s }

/-- The inputs a write uses up: one free value, and one report when writes can fail. -/
def useInputs (s : State) : State :=
  { s with
    draws := s.draws + 1
    lineReports := if s.par.lineWriteCanFail then s.lineReports.tail else s.lineReports }

/-- `LineWrite(L, v)` (40_output_line R91); whether it failed is `writeFails` of the state before. -/
def lineWrite (e : Event) (s : State) : State :=
  useInputs (writeDevice e (level s e.line) (writeFails s) (writeLine e s))

/-- A list of writes in order, stopping after the first that fails (60_exceptions R155, R158); with the failing write. -/
def runWrites : List Event → State → State × Option Event
  | [], s => (s, none)
  | e :: es, s => if writeFails s then (lineWrite e s, some e) else runWrites es (lineWrite e s)

/-- `respond(s, d)`: the response goes to the host (30_encoding R78, 00_scope R13). -/
def respond (status : Status) (data : Data) (s : State) : State :=
  { s with responses := s.responses ++ [⟨status, data⟩] }

/-- `raise E(info)`: an error is the response of the command that raised it (60_exceptions R157). Nothing is saved and
nothing else changes, so there is no return from it (60_exceptions R159). -/
def raise (status : Status) (data : Data) (s : State) : Result := .next (respond status data s)

/-- The end of a command that issued writes: `OK` with `data`, or LINE_WRITE_FAILED (60_exceptions R155). -/
def endWrites (data : Data) (r : State × Option Event) : Result :=
  match r.2 with
  | none => .next (respond .ok data r.1)
  | some e => raise .lineWriteFailed (failureData e) r.1

/-- Issue a command's writes and end it with `OK`, DATA 0, or with the first failure (60_exceptions R158 step 4). -/
def issue (ws : List Event) (s : State) : Result := endWrites 0#32 (runWrites ws s)

/-- The existence check (60_exceptions R154, R158 step 2). -/
def requireEngine (s : State) (k : Result) : Result :=
  if s.constructed then k else raise .notConstructed 0#32 s

end Sys2Proof.Machine
end

