-- ==== Sys2Proof/Machine/Construct.lean ====
section
/-! DEFINITION. Construction, the reset operation of this hardware (70_reset_and_hazards R200). -/

namespace Sys2Proof.Machine

/-- `cfg.present <- PRESENT; cfg.N <- BIT_LENGTH; constructed <- true` (70_reset_and_hazards R200). Levels, trace and device
carry over (R202). -/
def newEngine (r : ConstructRecord) (s : State) : State :=
  { s with constructed := true, cfg := { present := presentLines r.present, bitLength := r.bitLength } }

/-- CONSTRUCT (70_reset_and_hazards R200; the order of the checks is 60_exceptions R158). -/
def construct (r : ConstructRecord) (s : State) : Result :=
  if lengthInRange s.par.bitLengthMax r.bitLength then
    if missingMask r.present = 0#3 then issue (constructWrites (r.present.getLsbD 3)) (newEngine r s)
    else raise .configMissingLine ((missingMask r.present).setWidth 32) s
  else .refused .bitLengthOutOfRange

end Sys2Proof.Machine
end

