-- ==== Sys2Proof/Machine/LatchOutput.lean ====
section
/-! DEFINITION. The latch and output-enable commands (42_latch_output). -/

namespace Sys2Proof.Machine

/-- LATCH (42_latch_output R130). -/
def execLatch (s : State) : Result := requireEngine s (issue pulseLat s)

/-- ENABLE_OUTPUT (42_latch_output R131): the value goes to the line as it is (R133), and nothing happens when OE is absent. -/
def execEnableOutput (value : Bool) (s : State) : Result :=
  requireEngine s (issue (enableWrites s.cfg.present.oe value) s)

end Sys2Proof.Machine
end

