-- ==== Sys2Proof/Machine/Shift.lean ====
section
/-! DEFINITION. The shift commands (41_shift). -/

namespace Sys2Proof.Machine

/-- SHIFT_BIT (41_shift R110). -/
def execShiftBit (value : Bool) (s : State) : Result := requireEngine s (issue (bitWrites value) s)

/-- SHIFT_BYTE (41_shift R112). -/
def execShiftByte (latch : Bool) (value : Byte) (s : State) : Result :=
  requireEngine s (issue (byteWrites latch value) s)

/-- SHIFT_CLEAR (41_shift R114, R115): the alignment check comes before any write. -/
def execShiftClear (s : State) : Result :=
  requireEngine s
    (if byteAligned s.cfg.bitLength then issue (clearWrites s.cfg.bitLength.toNat) s
     else raise .configNotByteAligned s.cfg.bitLength s)

end Sys2Proof.Machine
end

