-- ==== Sys2Proof/Machine/StatusRead.lean ====
section
/-! DEFINITION. The status command (43_status). -/

namespace Sys2Proof.Machine

/-- GET_BIT_LENGTH (43_status R140): answers N, writes nothing. -/
def execGetBitLength (s : State) : Result := requireEngine s (.next (respond .ok s.cfg.bitLength s))

end Sys2Proof.Machine
end

