-- ==== Sys2Proof/Machine/Dispatch.lean ====
section
/-! DEFINITION. One arm per command. -/

namespace Sys2Proof.Machine

def exec (i : Instr) (s : State) : Host.Outcome State Fault Refusal :=
  match i with
  | .shiftBit value => Sys2Proof.Machine.execShiftBit value s
  | .shiftByte latch value => Sys2Proof.Machine.execShiftByte latch value s
  | .shiftClear => Sys2Proof.Machine.execShiftClear s
  | .latch => Sys2Proof.Machine.execLatch s
  | .enableOutput value => Sys2Proof.Machine.execEnableOutput value s
  | .getBitLength => Sys2Proof.Machine.execGetBitLength s

end Sys2Proof.Machine
end

