-- ==== Sys2Proof/Machine/HostMoves.lean ====
section
/-! DEFINITION. The moves of the host, and what a step adds around a command: taking the host's next move, the host's
position, and the I/O layer's scheduler tick. -/

namespace Sys2Proof.Machine

/-- The host's next move is taken. -/
def takeMove (s : State) : State := { s with pending := s.pending.tail }

/-- The host's position advances by 1 when a command ends, whatever its status (10_state R32). -/
def advanceHpc (s : State) : State := { s with hpc := s.hpc + 1 }

/-- The oldest `n` queued writes land, in order (20_memory R61, 40_output_line R93). -/
def landQueued (n : Nat) (s : State) : State :=
  let landed := (s.queue.take n).foldl landWrite s
  { landed with queue := s.queue.drop n }

/-- A scheduler tick of the I/O layer between two host moves (40_output_line R93, log 11). -/
def schedulerTick (s : State) : State :=
  if s.par.ioDeferred then landQueued (s.ticks.headD 0) { s with ticks := s.ticks.tail } else s

/-- The state the host finds after a command has ended. -/
def endCommand (s : State) : State := schedulerTick (advanceHpc s)

/-- Apply `f` to the next state an operation answers. -/
def thenNext (f : State → State) : Result → Result
  | .next s => .next (f s)
  | .fault r => .fault r
  | .refused r => .refused r

/-- The decode check (60_exceptions R153, R158 step 1): DATA is the word. -/
def raiseIllegal (w : CmdWord) (s : State) : Result := raise .illegalCommand (w.setWidth 32) s

/-- A command word: the decode check, then the command (60_exceptions R158). -/
def runWord (w : CmdWord) (s : State) : Result :=
  match decode w with
  | .instr i => exec i s
  | .illegal _ => raiseIllegal w s

/-- The host's next move is the command word `w` (60_exceptions R166). -/
def commandMove (w : CmdWord) (s : State) : Result := thenNext endCommand (runWord w (takeMove s))

/-- The host's next move is a construction, which leaves `hpc` alone (70_reset_and_hazards R202, R203). -/
def constructMove (r : ConstructRecord) (s : State) : Result := thenNext schedulerTick (construct r (takeMove s))

/-- The host has no move left: the run has ended (10_state R32, log 5). -/
def noMove : Result := .fault .endOfRun

/-- The host with the word `w` as its very next move. -/
def placeCommand (w : CmdWord) (s : State) : State := { s with pending := .command w :: s.pending }

end Sys2Proof.Machine
end

