-- ==== Sys2Proof/Machine/Step.lean ====
section
/-! DEFINITION. One step: the host's next move, carried out whole (00_scope R9, 60_exceptions R166). -/

namespace Sys2Proof.Machine

/-- One move of the host. -/
def step (s : State) : Host.Outcome State Fault Refusal :=
  match s.pending with
  | [] => noMove
  | .command w :: _ => commandMove w s
  | .construct r :: _ => constructMove r s

/-- `s` with the word as the host's next command, so that the next step runs exactly it (log 4). -/
def State.withFetchWord (s : State) (nbits w : Nat) : State := placeCommand (BitVec.ofNat 16 (tableBits nbits w)) s

end Sys2Proof.Machine
end

