-- ==== Sys2Proof/Machine/Assembler.lean ====
section
/-! DEFINITION. The assembler of 30_encoding R80 and its pseudo-instructions (R81). A host tool: the engine never sees it.
Where the spec gives no white-space rule the choice is log 17. -/

namespace Sys2Proof.Machine

/-- `shift_chain`: every byte but the last without a latch pulse, the last with one (30_encoding R81). -/
def chainCommands : List Nat → List Instr
  | [] => []
  | [imm] => [.shiftByte true (BitVec.ofNat 8 imm)]
  | imm :: next :: rest => .shiftByte false (BitVec.ofNat 8 imm) :: chainCommands (next :: rest)

/-- The commands a statement stands for (30_encoding R80, R81). Omitting `latch` means `latch=1`. -/
def expand : AsmLine → List Instr
  | .shiftBit value => [.shiftBit value]
  | .shiftByte imm latch => [.shiftByte (latch.getD true) (BitVec.ofNat 8 imm)]
  | .shiftClear => [.shiftClear]
  | .latch => [.latch]
  | .enableOutput value => [.enableOutput value]
  | .getBitLength => [.getBitLength]
  | .shiftChain imms => chainCommands imms
  | .outputsOn => [.enableOutput false]
  | .outputsOff => [.enableOutput true]

/-- The words of a statement; `none` when the assembler rejects it (30_encoding R80). -/
def assembleLine (a : AsmLine) : Option (List CmdWord) :=
  if a.wf then some ((expand a).map encode) else none

/-- Blanks between the parts of a line. -/
def isBlank (c : Char) : Bool := c == ' ' || c == '\t' || c == '\r'

/-- A text without the blanks at its two ends. -/
def trimBlanks (t : List Char) : List Char := ((t.dropWhile isBlank).reverse.dropWhile isBlank).reverse

/-- A text cut at every `sep`. -/
def splitOn (sep : Char) : List Char → List (List Char)
  | [] => [[]]
  | c :: cs =>
    if c = sep then [] :: splitOn sep cs
    else
      match splitOn sep cs with
      | [] => [[c]]
      | part :: parts => (c :: part) :: parts

/-- The value of a digit, of either case for hex. -/
def digitValue (c : Char) : Option Nat :=
  if '0' ≤ c ∧ c ≤ '9' then some (c.toNat - '0'.toNat)
  else if 'a' ≤ c ∧ c ≤ 'f' then some (c.toNat - 'a'.toNat + 10)
  else if 'A' ≤ c ∧ c ≤ 'F' then some (c.toNat - 'A'.toNat + 10)
  else none

/-- Digits in a base, continuing from `acc`. -/
def parseDigits (base : Nat) : Nat → List Char → Option Nat
  | acc, [] => some acc
  | acc, c :: cs =>
    match digitValue c with
    | some d => if d < base then parseDigits base (acc * base + d) cs else none
    | none => none

/-- At least one digit in a base. -/
def parseNumber (base : Nat) (t : List Char) : Option Nat := if t.isEmpty then none else parseDigits base 0 t

/-- `<imm>`: decimal, `0x` hex or `0b` binary (30_encoding R80). -/
def parseImm : List Char → Option Nat
  | '0' :: 'x' :: ds => parseNumber 16 ds
  | '0' :: 'b' :: ds => parseNumber 2 ds
  | ds => parseNumber 10 ds

/-- `<b>`: 0, 1, false or true (30_encoding R80). -/
def parseBool (t : List Char) : Option Bool :=
  if t = "0".toList ∨ t = "false".toList then some false
  else if t = "1".toList ∨ t = "true".toList then some true
  else none

/-- `latch=<b>` (30_encoding R80). -/
def parseLatch (t : List Char) : Option Bool :=
  if t.take 6 = "latch=".toList then parseBool (t.drop 6) else none

/-- Every entry's value, or nothing when one has none. -/
def allSome : List (Option Nat) → Option (List Nat)
  | [] => some []
  | none :: _ => none
  | some n :: rest => (allSome rest).map (n :: ·)

/-- `shift_byte <imm>[, latch=<b>]` (30_encoding R80). -/
def parseShiftByte : List (List Char) → Option AsmLine
  | [imm] => (parseImm imm).map (.shiftByte · none)
  | [imm, latch] =>
    match parseImm imm, parseLatch latch with
    | some n, some b => some (.shiftByte n (some b))
    | _, _ => none
  | _ => none

/-- A mnemonic with one Boolean operand. -/
def parseBoolArg (make : Bool → AsmLine) : List (List Char) → Option AsmLine
  | [b] => (parseBool b).map make
  | _ => none

/-- A mnemonic with no operand. -/
def parseNoArg (a : AsmLine) : List (List Char) → Option AsmLine
  | [] => some a
  | _ => none

/-- A statement from its mnemonic and operands (30_encoding R80, R81). -/
def parseStatement (mnemonic : List Char) (args : List (List Char)) : Option AsmLine :=
  if mnemonic = "shift_bit".toList then parseBoolArg .shiftBit args
  else if mnemonic = "shift_byte".toList then parseShiftByte args
  else if mnemonic = "shift_clear".toList then parseNoArg .shiftClear args
  else if mnemonic = "latch".toList then parseNoArg .latch args
  else if mnemonic = "enable_output".toList then parseBoolArg .enableOutput args
  else if mnemonic = "get_bit_length".toList then parseNoArg .getBitLength args
  else if mnemonic = "shift_chain".toList then (allSome (args.map parseImm)).map .shiftChain
  else if mnemonic = "outputs_on".toList then parseNoArg .outputsOn args
  else if mnemonic = "outputs_off".toList then parseNoArg .outputsOff args
  else none

/-- The operands after a mnemonic, cut at commas. -/
def parseArgs (t : List Char) : List (List Char) :=
  if t.isEmpty then [] else (splitOn ',' t).map trimBlanks

/-- The statement of a line with its comment gone and its ends trimmed. -/
def parseBody (t : List Char) : Option AsmLine :=
  parseStatement (t.takeWhile (fun c => !isBlank c)) (parseArgs (trimBlanks (t.dropWhile (fun c => !isBlank c))))

/-- The words of one line of text: none at all for a line that holds only a comment (30_encoding R80). -/
def assembleTextLine (t : List Char) : Option (List CmdWord) :=
  let body := trimBlanks (t.takeWhile (fun c => c != ';'))
  if body.isEmpty then some [] else (parseBody body).bind assembleLine

/-- The words of some lines of text, in order; nothing when one line is rejected. -/
def assembleLines : List (List Char) → Option (List CmdWord)
  | [] => some []
  | l :: ls =>
    match assembleTextLine l, assembleLines ls with
    | some ws, some rest => some (ws ++ rest)
    | _, _ => none

/-- A program text, one command per line (30_encoding R80). -/
def assembleText (text : String) : Option (List CmdWord) := assembleLines (splitOn '\n' text.toList)

end Sys2Proof.Machine
end

