-- ==== Sys2Proof/Safety.lean ====
section
/-! DEFINITION. What the claims speak of: the opcode map and illegal words as the spec writes them, rest levels, runs
without a write failure, the writes of each command, and the invariant of the machine. -/

namespace Sys2Proof.Machine

/-- The row of a mnemonic in the opcode map (30_encoding R72). -/
structure OpcodeRow where
  mnemonic : String
  pattern : CmdWord
  mask : CmdWord
deriving DecidableEq, Repr

/-- The opcode map, written out from 30_encoding R72. -/
def opcodeMap : List OpcodeRow :=
  [⟨"SHIFT_BIT", 0x1000#16, 0xFEFF#16⟩, ⟨"SHIFT_BYTE", 0x2000#16, 0xFE00#16⟩, ⟨"SHIFT_CLEAR", 0x3000#16, 0xFFFF#16⟩,
   ⟨"LATCH", 0x4000#16, 0xFFFF#16⟩, ⟨"ENABLE_OUTPUT", 0x5000#16, 0xFEFF#16⟩, ⟨"GET_BIT_LENGTH", 0x6000#16, 0xFFFF#16⟩]

/-- "A word w selects a row exactly when (w AND mask) == match" (30_encoding R72). -/
abbrev OpcodeRow.selects (row : OpcodeRow) (w : CmdWord) : Prop := w &&& row.mask = row.pattern

/-- The opcodes of format N (30_encoding R72). -/
def formatN : List Nat := [3, 4, 6]

/-- The opcodes of format F (30_encoding R72). -/
def formatF : List Nat := [1, 5]

/-- An illegal word, by the three cases of 30_encoding R74 on the word's value as a number. -/
abbrev IllegalWord (w : CmdWord) : Prop :=
  (w.toNat / 4096 = 0 ∨ 7 ≤ w.toNat / 4096)
    ∨ w.toNat / 512 % 8 ≠ 0
    ∨ (w.toNat / 4096 ∈ formatN ∧ (w.toNat / 256 % 2 ≠ 0 ∨ w.toNat % 256 ≠ 0))
    ∨ (w.toNat / 4096 ∈ formatF ∧ w.toNat % 256 ≠ 0)

/-- SER, CLK and LAT at logical false (10_state R36). -/
abbrev AtRest (s : State) : Prop := level s .ser = some false ∧ level s .clk = some false ∧ level s .lat = some false

/-- None of the next `n` line writes is reported as failed (60_exceptions R155). -/
abbrev WritesSucceed (n : Nat) (s : State) : Prop :=
  s.par.lineWriteCanFail = false ∨ ∀ b ∈ s.lineReports.take n, b = false

/-- The next `j` line writes succeed and the one after them fails (60_exceptions R155). -/
abbrev FirstFailureAt (j : Nat) (s : State) : Prop :=
  s.par.lineWriteCanFail = true ∧ (∀ b ∈ s.lineReports.take j, b = false) ∧ s.lineReports[j]? = some true

/-- The ordered writes of a command whose checks have passed (41_shift, 42_latch_output, 43_status). -/
def commandWrites (i : Instr) (s : State) : List Event :=
  match i with
  | .shiftBit value => bitWrites value
  | .shiftByte latch value => byteWrites latch value
  | .shiftClear => clearWrites s.cfg.bitLength.toNat
  | .latch => pulseLat
  | .enableOutput value => enableWrites s.cfg.present.oe value
  | .getBitLength => []

/-- The command's own precondition (60_exceptions R158 step 3). -/
abbrev Precondition (i : Instr) (s : State) : Prop := i = .shiftClear → s.cfg.bitLength.toNat % 8 = 0

/-- "writes on success", the table of 70_reset_and_hazards R214. -/
def successWrites (i : Instr) (s : State) : Nat :=
  match i with
  | .shiftBit _ => 4
  | .shiftByte latch _ => if latch then 34 else 32
  | .shiftClear => 34 * (s.cfg.bitLength.toNat / 8)
  | .latch => 2
  | .enableOutput _ => if s.cfg.present.oe then 1 else 0
  | .getBitLength => 0

/-- The data of a command's `OK` response (30_encoding R78). -/
def successData (i : Instr) (s : State) : Data := if i = .getBitLength then s.cfg.bitLength else 0#32

/-- The value of the last event of a line in a trace; `none` where there is none (10_state R26). -/
def lastWrite (l : Line) (trace : List Event) : Option Bool :=
  trace.foldl (fun v e => if e.line = l then some e.value else v) none

/-- The state once every queued write has landed (40_output_line R93). -/
def drained (s : State) : State := s.queue.foldl landWrite s

/-- The reference observer describes the device and no failed write is outstanding (60_exceptions R171). -/
abbrev DeviceKnown (s : State) : Prop := observerApplies s = true ∧ s.dev.unsettled = none

/-- The device's three lists have DEV_LEN positions (60_exceptions R168). -/
abbrev DeviceSized (s : State) : Prop :=
  s.dev.stage.length = s.par.devLen ∧ s.dev.out.length = s.par.devLen ∧ s.dev.outputs.length = s.par.devLen

/-- S, Q and Y at the free values of one draw (60_exceptions R155, R171, R178; log 7). -/
def freeDevice (draw devLen : Nat) (unsettled : Option Nat) : Device :=
  { stage := (List.range devLen).map (Config.freeStage draw)
    out := (List.range devLen).map (Config.freeOut draw)
    outputs := (List.range devLen).map (Config.freeOutput draw)
    unsettled := unsettled }

/-- OE is present and at true, and the known device shows high impedance everywhere (70_reset_and_hazards R201). -/
abbrev OutputsDisabled (s : State) : Prop :=
  s.cfg.present.oe = true ∧ DeviceKnown s ∧ level s .oe = some true ∧
    s.dev.outputs = List.replicate s.dev.out.length .z

/-- The invariant every step keeps. -/
structure StateInv (s : State) : Prop where
  /-- A constructed engine has its three mandatory lines (10_state R22). -/
  mandatory : s.constructed = true →
    s.cfg.present.ser = true ∧ s.cfg.present.clk = true ∧ s.cfg.present.lat = true
  /-- A constructed engine's N is in range (10_state R23, 00_scope R10). -/
  lengthOk : s.constructed = true → 1 ≤ s.cfg.bitLength.toNat ∧ s.cfg.bitLength.toNat ≤ s.par.bitLengthMax.toNat
  /-- The device keeps its length (60_exceptions R169). -/
  sized : DeviceSized s
  /-- Where writes cannot fail, a level is that of the line's last event (10_state R26). -/
  levels : s.par.lineWriteCanFail = false → ∀ l, level s l = lastWrite l s.trace
  /-- Where writes cannot fail, a constructed engine's mandatory lines rest (10_state R36). -/
  rest : s.par.lineWriteCanFail = false → s.constructed = true → AtRest s
  /-- Once the queue has drained the pin of every hardware line is at its physical level (10_state R27, 20_memory R61); after
  a failed write this is log 9. -/
  pins : ∀ l, (s.line.get l).variant = .hardware → ((drained s).line.get l).pin = phys s l
  /-- No write has driven, or waits to drive, the pin of a recording fake (40_output_line R95). -/
  fakes : ∀ l, (s.line.get l).variant = .recordingFake →
    (s.line.get l).pin = none ∧ s.queue.filter (fun q => q.line = l) = []
  /-- Nothing waits where writes land at once (40_output_line R93). -/
  direct : s.par.ioDeferred = false → s.queue = []

/-- The moves of `shift_chain`: every byte but the last without a latch, the last with one (20_memory R54, 30_encoding R81). -/
def chainMoves : List Byte → List HostMove
  | [] => []
  | [b] => [.command (encode (.shiftByte true b))]
  | b :: c :: rest => .command (encode (.shiftByte false b)) :: chainMoves (c :: rest)

/-- `{b_1, ..., b_k}` as a number, `b_k` least significant (41_shift R118). -/
def chainValue (bytes : List Byte) : Nat := bytes.foldl (fun v b => v * 256 + b.toNat) 0

end Sys2Proof.Machine
end

