-- ==== Sys2Proof/Certificates/Slice0/Obligations.lean ====
section
/-! DEFINITION. The statements for the provers. Each docstring names the rule of spec/ it formalises. -/

open Sys2Proof Sys2Proof.Machine

/-! ## Encoding -/

/-- 30_encoding R80, 95_test_vectors 2.8: words written out from the spec decode to what the spec says. -/
def Obligations.SpecWordsDecode : Prop :=
  decode 0x1000#16 = .instr (.shiftBit false) ∧ decode 0x1100#16 = .instr (.shiftBit true) ∧
  decode 0x21B0#16 = .instr (.shiftByte true 0xB0#8) ∧ decode 0x20FF#16 = .instr (.shiftByte false 0xFF#8) ∧
  decode 0x3000#16 = .instr .shiftClear ∧ decode 0x4000#16 = .instr .latch ∧
  decode 0x5000#16 = .instr (.enableOutput false) ∧ decode 0x5100#16 = .instr (.enableOutput true) ∧
  decode 0x6000#16 = .instr .getBitLength ∧
  decode 0x0000#16 = .illegal .unassignedOpcode ∧ decode 0x7000#16 = .illegal .unassignedOpcode ∧
  decode 0x1200#16 = .illegal .reservedNotZero ∧ decode 0x3100#16 = .illegal .fieldNotZero ∧
  decode 0x30FF#16 = .illegal .fieldNotZero ∧ decode 0x1101#16 = .illegal .fieldNotZero

/-- 30_encoding R72: which words select each row, with the operands the row's fields carry. -/
def Obligations.OpcodeMapGivesEachCommand : Prop :=
  ∀ w : CmdWord,
    (∀ value, decode w = .instr (.shiftBit value) ↔ w &&& 0xFEFF#16 = 0x1000#16 ∧ w.getLsbD 8 = value) ∧
    (∀ latch value, decode w = .instr (.shiftByte latch value) ↔
      w &&& 0xFE00#16 = 0x2000#16 ∧ w.getLsbD 8 = latch ∧ w.extractLsb' 0 8 = value) ∧
    (decode w = .instr .shiftClear ↔ w &&& 0xFFFF#16 = 0x3000#16) ∧
    (decode w = .instr .latch ↔ w &&& 0xFFFF#16 = 0x4000#16) ∧
    (∀ value, decode w = .instr (.enableOutput value) ↔ w &&& 0xFEFF#16 = 0x5000#16 ∧ w.getLsbD 8 = value) ∧
    (decode w = .instr .getBitLength ↔ w &&& 0xFFFF#16 = 0x6000#16)

/-- 30_encoding R75: every word selects exactly one row of the opcode map or is illegal by R74, never both, and the
decoder takes exactly the words that are not illegal. -/
def Obligations.EveryWordIsOneCommandOrIllegal : Prop :=
  ∀ w : CmdWord,
    (((opcodeMap.filter (fun row => row.selects w)).length = 1 ∧ ¬ IllegalWord w) ∨
      ((opcodeMap.filter (fun row => row.selects w)).length = 0 ∧ IllegalWord w)) ∧
    ((∃ i, decode w = .instr i) ↔ ¬ IllegalWord w)

/-- Decoding and encoding agree in both directions, for every command and every operand value, and for every word. -/
def Obligations.DecodeInvertsEncode : Prop :=
  (∀ i : Instr, decode (encode i) = .instr i) ∧ (∀ w i, decode w = .instr i → encode i = w)

/-- 30_encoding R79: the code of a write event; no two events share one. -/
def Obligations.EventCodesAreLineThenValue : Prop :=
  (∀ v : Bool, (eventCode ⟨.ser, v⟩).toNat = 0 + v.toNat ∧ (eventCode ⟨.clk, v⟩).toNat = 2 + v.toNat ∧
    (eventCode ⟨.lat, v⟩).toNat = 4 + v.toNat ∧ (eventCode ⟨.oe, v⟩).toNat = 6 + v.toNat) ∧
  (∀ e f : Event, eventCode e = eventCode f → e = f)

/-- 30_encoding R81: what the three pseudo-instructions expand to. -/
def Obligations.PseudoInstructionsExpand : Prop :=
  (∀ (imms : List Nat) (last : Nat), (∀ n ∈ imms, n ≤ 255) → last ≤ 255 →
    assembleLine (.shiftChain (imms ++ [last])) =
      some (imms.map (fun n => encode (.shiftByte false (BitVec.ofNat 8 n))) ++ [encode (.shiftByte true (BitVec.ofNat 8 last))])) ∧
  assembleLine (.shiftChain []) = none ∧
  assembleLine .outputsOn = assembleLine (.enableOutput false) ∧
  assembleLine .outputsOff = assembleLine (.enableOutput true)

/-- 30_encoding R80: every form of the assembler's table gives the word the table gives; an immediate above 255 is rejected. -/
def Obligations.AssemblerFormsGiveTheirWords : Prop :=
  assembleText "shift_bit 0" = some [0x1000#16] ∧ assembleText "shift_bit 1" = some [0x1100#16] ∧
  assembleText "shift_byte 0xB0" = some [0x21B0#16] ∧ assembleText "shift_byte 0xB0, latch=0" = some [0x20B0#16] ∧
  assembleText "shift_byte 0x00" = some [0x2100#16] ∧ assembleText "shift_byte 0xFF, latch=0" = some [0x20FF#16] ∧
  assembleText "shift_clear" = some [0x3000#16] ∧ assembleText "latch" = some [0x4000#16] ∧
  assembleText "enable_output 0" = some [0x5000#16] ∧ assembleText "enable_output 1" = some [0x5100#16] ∧
  assembleText "get_bit_length ; reads N" = some [0x6000#16] ∧ assembleText "shift_byte 256" = none

/-- 30_encoding R78: the code of each status. -/
def Obligations.StatusCodesAreTheTables : Prop :=
  [Status.ok, .configMissingLine, .configNotByteAligned, .illegalCommand, .lineWriteFailed, .notConstructed].map
    (fun st => (statusCode st).toNat) = [0, 1, 2, 3, 4, 5] ∧ ∀ st : Status, (statusCode st).toNat < 6

/-! ## One step -/

/-- A step whose next move is a command runs the decoded command, or answers ILLEGAL_COMMAND, and then ends the command:
the host's position moves on and the I/O layer has its tick (the model's choice, log 11). The same of a word placed by
`withFetchWord` (log 4). -/
def Obligations.StepRunsTheDecodedCommand : Prop :=
  (∀ (s : State) (w : CmdWord) (rest : List HostMove), s.pending = .command w :: rest →
    (∀ i, decode w = .instr i → step s = thenNext endCommand (exec i { s with pending := rest })) ∧
    (∀ why, decode w = .illegal why →
      step s = .next (endCommand (respond .illegalCommand (w.setWidth 32) { s with pending := rest })))) ∧
  (∀ (s : State) (r : ConstructRecord) (rest : List HostMove), s.pending = .construct r :: rest →
    step s = thenNext schedulerTick (construct r { s with pending := rest })) ∧
  (∀ (s : State) (i : Instr), step (s.withFetchWord 16 (encode i).toNat) = thenNext endCommand (exec i s))

/-- 10_state R32: the host's position starts at 0, advances by exactly 1 when a command ends, whatever its status, and by
nothing else; the run ends when no move is left, which is a fault here (the model's choice, log 5). -/
def Obligations.HostPositionAdvancesOncePerCommand : Prop :=
  State.reset.hpc = 0 ∧
  (∀ (s : State), s.pending = [] → step s = .fault .endOfRun) ∧
  (∀ (s : State) (w : CmdWord) (rest : List HostMove), s.pending = .command w :: rest →
    ∃ t, step s = .next t ∧ t.hpc = s.hpc + 1 ∧ t.pending = rest) ∧
  (∀ (s t : State) (r : ConstructRecord) (rest : List HostMove), s.pending = .construct r :: rest → step s = .next t →
    t.hpc = s.hpc ∧ t.pending = rest) ∧
  (∀ (i : Instr) (s t : State), exec i s = .next t → t.hpc = s.hpc ∧ t.pending = s.pending)

/-- 60_exceptions R158: the order of the checks, for a command word and for a construction; each answers one response, and
the first failing check decides it. -/
def Obligations.ChecksRunInTheirOrder : Prop :=
  (∀ (s : State) (w : CmdWord) (rest : List HostMove), s.pending = .command w :: rest →
    ∃ t r, step s = .next t ∧ t.responses = s.responses ++ [r] ∧
      (IllegalWord w → r = ⟨.illegalCommand, w.setWidth 32⟩) ∧
      (¬ IllegalWord w → s.constructed = false → r = ⟨.notConstructed, 0#32⟩) ∧
      (¬ IllegalWord w → s.constructed = true → w = 0x3000#16 → s.cfg.bitLength.toNat % 8 ≠ 0 →
        r = ⟨.configNotByteAligned, s.cfg.bitLength⟩) ∧
      (∀ i, decode w = .instr i → s.constructed = true → ¬ (w = 0x3000#16 ∧ s.cfg.bitLength.toNat % 8 ≠ 0) →
        (WritesSucceed (successWrites i s) s → r = ⟨.ok, successData i s⟩) ∧
        (∀ j e, FirstFailureAt j s → (commandWrites i s)[j]? = some e →
          r = ⟨.lineWriteFailed, (eventCode e).setWidth 32⟩))) ∧
  (∀ (s : State) (c : ConstructRecord) (rest : List HostMove), s.pending = .construct c :: rest →
    ((c.bitLength.toNat = 0 ∨ s.par.bitLengthMax.toNat < c.bitLength.toNat) → step s = .refused .bitLengthOutOfRange) ∧
    (¬ (c.bitLength.toNat = 0 ∨ s.par.bitLengthMax.toNat < c.bitLength.toNat) →
      ∃ t r, step s = .next t ∧ t.responses = s.responses ++ [r] ∧
        (¬ (c.present.getLsbD 0 = true ∧ c.present.getLsbD 1 = true ∧ c.present.getLsbD 2 = true) →
          r = ⟨.configMissingLine, (~~~(c.present.setWidth 3)).setWidth 32⟩) ∧
        ((c.present.getLsbD 0 = true ∧ c.present.getLsbD 1 = true ∧ c.present.getLsbD 2 = true) →
          (WritesSucceed (constructWrites (c.present.getLsbD 3)).length s → r = ⟨.ok, 0#32⟩) ∧
          (∀ j e, FirstFailureAt j s → (constructWrites (c.present.getLsbD 3))[j]? = some e →
            r = ⟨.lineWriteFailed, (eventCode e).setWidth 32⟩))))

/-! ## The output line -/

/-- 40_output_line R91: what one write that does not fail does to level, physical level and trace, and what it leaves
alone; no write fails where LINE_WRITE_CAN_FAIL is false. Under IO_DEFERRED (R93) the pin has the value once the queue has
drained; a recording fake (R95) drives nothing. -/
def Obligations.LineWriteSetsLevelPinAndTrace : Prop :=
  (∀ s : State, s.par.lineWriteCanFail = false → writeFails s = false) ∧
  ∀ (e : Event) (s : State), writeFails s = false →
    level (lineWrite e s) e.line = some e.value ∧
    phys (lineWrite e s) e.line = some (e.value ^^ !(s.line.get e.line).activeHigh) ∧
    (lineWrite e s).trace = s.trace ++ [e] ∧
    (∀ l, l ≠ e.line → (lineWrite e s).line.get l = s.line.get l) ∧
    ((lineWrite e s).line.get e.line).pinId = (s.line.get e.line).pinId ∧
    ((lineWrite e s).line.get e.line).activeHigh = (s.line.get e.line).activeHigh ∧
    ((lineWrite e s).line.get e.line).variant = (s.line.get e.line).variant ∧
    ((s.line.get e.line).variant = .hardware → s.par.ioDeferred = false →
      ((lineWrite e s).line.get e.line).pin = phys (lineWrite e s) e.line ∧ (lineWrite e s).queue = s.queue) ∧
    ((s.line.get e.line).variant = .hardware → s.par.ioDeferred = true →
      ((drained (lineWrite e s)).line.get e.line).pin = phys (lineWrite e s) e.line ∧
      ∀ l, l ≠ e.line → ((drained (lineWrite e s)).line.get l).pin = ((drained s).line.get l).pin) ∧
    ((s.line.get e.line).variant = .recordingFake →
      ((lineWrite e s).line.get e.line).pin = (s.line.get e.line).pin ∧ (lineWrite e s).queue = s.queue) ∧
    (lineWrite e s).par = s.par ∧ (lineWrite e s).constructed = s.constructed ∧ (lineWrite e s).cfg = s.cfg ∧
    (lineWrite e s).pending = s.pending ∧ (lineWrite e s).hpc = s.hpc ∧ (lineWrite e s).responses = s.responses

/-- 20_memory R58: every write appends its event; one of the level a line already holds leaves the levels and still changes
the trace. -/
def Obligations.SameLevelWriteStillAppends : Prop :=
  (∀ (e : Event) (s : State), (lineWrite e s).trace = s.trace ++ [e]) ∧
  (∀ (e : Event) (s : State), writeFails s = false → level s e.line = some e.value →
    (∀ l, level (lineWrite e s) l = level s l) ∧ (lineWrite e s).trace ≠ s.trace)

/-- 10_state R27: the physical level of a line, for every level and polarity. -/
def Obligations.PhysicalLevelIsLevelXorNotActiveHigh : Prop :=
  ∀ (s : State) (l : Line),
    (level s l = none → phys s l = none) ∧
    (∀ v, level s l = some v → phys s l = some (v ^^ !(s.line.get l).activeHigh))

/-- 40_output_line R93 and 20_memory R61: a scheduler tick lands the oldest queued writes, in their order, each at its
line's physical level, and changes no level and no event; where writes are not deferred it changes nothing. A deferred write
of a hardware line waits behind those already queued. How many writes a tick lands is the model's input, and that none falls
before a write returns is its choice (log 11). -/
def Obligations.SchedulerTickLandsOldestWritesInOrder : Prop :=
  (∀ s : State, s.par.ioDeferred = false → schedulerTick s = s) ∧
  (∀ (s : State) (n : Nat) (later : List Nat), s.par.ioDeferred = true → s.ticks = n :: later →
    (schedulerTick s).queue = s.queue.drop n ∧ (schedulerTick s).ticks = later ∧
    (schedulerTick s).trace = s.trace ∧ (∀ l, level (schedulerTick s) l = level s l) ∧
    (∀ l, ((schedulerTick s).line.get l).pin = (s.queue.take n).foldl
      (fun v q => if q.line = l then some (q.level ^^ !(s.line.get l).activeHigh) else v) (s.line.get l).pin)) ∧
  (∀ (e : Event) (s : State), writeFails s = false → (s.line.get e.line).variant = .hardware → s.par.ioDeferred = true →
    ((lineWrite e s).line.get e.line).pin = (s.line.get e.line).pin ∧
    (lineWrite e s).queue = s.queue ++ [⟨e.line, e.value⟩])

/-- 10_state R29: the trace only grows, one event per line write in the order issued, at every step. -/
def Obligations.TraceOnlyGrows : Prop :=
  (∀ (e : Event) (s : State), (lineWrite e s).trace = s.trace ++ [e]) ∧
  (∀ s t : State, step s = .next t → ∃ es, t.trace = s.trace ++ es) ∧ State.reset.trace = []

/-- 40_output_line R95: the hardware line drives its pin, at once or once the queue has drained; the recording fake drives
nothing, whatever a command or a construction writes; every write appends to its line's record, in order, and to no other.
No step changes what belongs to a line for its life (10_state R26). That the record of a line, of a hardware line too, is
its part of the trace, and that the variant is fixed as the polarity is, is the model's reading, log 22. -/
def Obligations.LineVariantsDriveOrOnlyRecord : Prop :=
  (∀ (e : Event) (s : State), (s.line.get e.line).variant = .hardware → writeFails s = false →
    (s.par.ioDeferred = false → ((lineWrite e s).line.get e.line).pin = phys (lineWrite e s) e.line) ∧
    (s.par.ioDeferred = true → ((drained (lineWrite e s)).line.get e.line).pin = phys (lineWrite e s) e.line)) ∧
  (∀ (s t : State) (l : Line), (s.line.get l).variant = .recordingFake →
    ((∃ i, exec i s = .next t) ∨ ∃ r, construct r s = .next t) →
    (t.line.get l).pin = (s.line.get l).pin ∧
    t.queue.filter (fun q => q.line = l) = s.queue.filter (fun q => q.line = l)) ∧
  (∀ (e : Event) (s : State) (l : Line), lineRecord l (lineWrite e s).trace =
    if l = e.line then lineRecord l s.trace ++ [e] else lineRecord l s.trace) ∧
  (∀ (s t : State) (l : Line), step s = .next t → (t.line.get l).pinId = (s.line.get l).pinId ∧
    (t.line.get l).activeHigh = (s.line.get l).activeHigh ∧ (t.line.get l).variant = (s.line.get l).variant)

/-! ## Construction (reset) -/

/-- 70_reset_and_hazards R203, the power-up column, for every parameter, pin identifier, polarity and variant. What the column calls
unspecified or any value is left out. That State.reset is power-up is log 1. -/
def Obligations.PowerUpHasNoEngineAndUnknownLevels : Prop :=
  (∀ (p : Params) (pins : PerLine Nat) (pol : PerLine Bool) (var : PerLine LineVariant),
    (State.powerUp p pins pol var).constructed = false ∧ (∀ l, level (State.powerUp p pins pol var) l = none) ∧
    (∀ l, ((State.powerUp p pins pol var).line.get l).activeHigh = pol.get l) ∧
    (∀ l, ((State.powerUp p pins pol var).line.get l).pinId = pins.get l) ∧
    (∀ l, ((State.powerUp p pins pol var).line.get l).variant = var.get l) ∧
    (State.powerUp p pins pol var).trace = [] ∧ (State.powerUp p pins pol var).hpc = 0) ∧
  State.reset.constructed = false ∧ (∀ l, level State.reset l = none) ∧ State.reset.trace = [] ∧ State.reset.hpc = 0

/-- 70_reset_and_hazards R200: construction, all three ways. -/
def Obligations.ConstructionBringsUpTheEngine : Prop :=
  ∀ (r : ConstructRecord) (s : State),
    ((r.bitLength.toNat = 0 ∨ s.par.bitLengthMax.toNat < r.bitLength.toNat) →
      construct r s = .refused .bitLengthOutOfRange) ∧
    (1 ≤ r.bitLength.toNat → r.bitLength.toNat ≤ s.par.bitLengthMax.toNat →
      ¬ (r.present.getLsbD 0 = true ∧ r.present.getLsbD 1 = true ∧ r.present.getLsbD 2 = true) →
      construct r s = .next (respond .configMissingLine
        ((BitVec.ofBool (!r.present.getLsbD 2) ++ BitVec.ofBool (!r.present.getLsbD 1) ++
          BitVec.ofBool (!r.present.getLsbD 0)).setWidth 32) s)) ∧
    (1 ≤ r.bitLength.toNat → r.bitLength.toNat ≤ s.par.bitLengthMax.toNat →
      r.present.getLsbD 0 = true → r.present.getLsbD 1 = true → r.present.getLsbD 2 = true →
      WritesSucceed (if r.present.getLsbD 3 then 4 else 3) s →
      ∃ t, construct r s = .next t ∧
        t.constructed = true ∧ t.cfg = ⟨⟨true, true, true, r.present.getLsbD 3⟩, r.bitLength⟩ ∧
        t.trace = s.trace ++ [⟨.ser, false⟩, ⟨.lat, false⟩, ⟨.clk, false⟩] ++
          (if r.present.getLsbD 3 then [⟨.oe, true⟩] else []) ∧
        t.responses = s.responses ++ [⟨.ok, 0#32⟩] ∧
        AtRest t ∧
        (r.present.getLsbD 3 = true → level t .oe = some true) ∧
        (r.present.getLsbD 3 = false → t.line.oe = s.line.oe) ∧
        (DeviceKnown (newEngine r s) → t.dev.stage = s.dev.stage ∧ t.dev.out = s.dev.out))

/-- 60_exceptions R151 and 70_reset_and_hazards R204: a construction with a required line missing changes nothing; its data
names every missing line, and the output-enable bit never matters. -/
def Obligations.MissingLineConstructionChangesNothing : Prop :=
  ∀ (r : ConstructRecord) (s t : State), construct r s = .next t →
    ((r.present.getLsbD 0 = false ∨ r.present.getLsbD 1 = false ∨ r.present.getLsbD 2 = false) ↔
      t.responses = s.responses ++ [⟨.configMissingLine, (~~~(r.present.setWidth 3)).setWidth 32⟩]) ∧
    ((r.present.getLsbD 0 = false ∨ r.present.getLsbD 1 = false ∨ r.present.getLsbD 2 = false) →
      t.constructed = s.constructed ∧ t.cfg = s.cfg ∧ t.line = s.line ∧ t.trace = s.trace ∧ t.queue = s.queue ∧ t.dev = s.dev)

/-- 60_exceptions R156: exactly the records out of range are refused, and nothing else the host can send is. -/
def Obligations.OnlyOutOfRangeLengthIsRefused : Prop :=
  (∀ (r : ConstructRecord) (s : State), construct r s = .refused .bitLengthOutOfRange ↔
    r.bitLength.toNat = 0 ∨ s.par.bitLengthMax.toNat < r.bitLength.toNat) ∧
  (∀ (s : State) (why : Refusal), step s = .refused why →
    ∃ r rest, s.pending = .construct r :: rest ∧ (r.bitLength.toNat = 0 ∨ s.par.bitLengthMax.toNat < r.bitLength.toNat))

/-- 70_reset_and_hazards R202: only a construction sets or changes `cfg` or `constructed`; levels and trace carry over. A
construction leaves the parameters and every line's pin identifier and polarity (R203), and no step changes a parameter
(00_scope R10). -/
def Obligations.OnlyConstructionChangesConfiguration : Prop :=
  (∀ s t : State, step s = .next t → (t.cfg ≠ s.cfg ∨ t.constructed ≠ s.constructed) →
    ∃ r rest, s.pending = .construct r :: rest ∧ t.constructed = true ∧
      t.cfg = ⟨presentLines r.present, r.bitLength⟩ ∧ ∃ es, t.trace = s.trace ++ es) ∧
  (∀ (r : ConstructRecord) (s t : State), construct r s = .next t → t.par = s.par ∧
    ∀ l, (t.line.get l).pinId = (s.line.get l).pinId ∧ (t.line.get l).activeHigh = (s.line.get l).activeHigh) ∧
  (∀ s t : State, step s = .next t → t.par = s.par)

/-! ## The commands -/

/-- 41_shift R110: SHIFT_BIT. -/
def Obligations.ShiftBitIssuesItsFourWrites : Prop :=
  ∀ (value : Bool) (s : State), s.constructed = true →
    (WritesSucceed 4 s → ∃ t, exec (.shiftBit value) s = .next t ∧
      t.trace = s.trace ++ [⟨.ser, value⟩, ⟨.clk, true⟩, ⟨.ser, false⟩, ⟨.clk, false⟩] ∧
      t.responses = s.responses ++ [⟨.ok, 0#32⟩] ∧
      level t .ser = some false ∧ level t .clk = some false) ∧
    (∃ t r, exec (.shiftBit value) s = .next t ∧ t.responses = s.responses ++ [r] ∧
      (r = ⟨.ok, 0#32⟩ ∨ r.status = .lineWriteFailed) ∧
      t.line.lat = s.line.lat ∧ t.line.oe = s.line.oe)

/-- 41_shift R112: SHIFT_BYTE, with the write counts. -/
def Obligations.ShiftByteIssuesEightBitsThenLatch : Prop :=
  ∀ (latch : Bool) (value : Byte) (s : State), s.constructed = true →
    (WritesSucceed (if latch then 34 else 32) s → ∃ t, exec (.shiftByte latch value) s = .next t ∧
      t.trace = s.trace ++ ((List.range 8).flatMap (fun i =>
          [⟨.ser, ((0x80#8 >>> i) &&& value) != 0#8⟩, ⟨.clk, true⟩, ⟨.ser, false⟩, ⟨.clk, false⟩]) ++
        (if latch then [⟨.lat, true⟩, ⟨.lat, false⟩] else [])) ∧
      t.trace.length = s.trace.length + (if latch then 34 else 32) ∧
      t.responses = s.responses ++ [⟨.ok, 0#32⟩] ∧
      level t .ser = some false ∧ level t .clk = some false ∧
      level t .lat = (if latch then some false else level s .lat)) ∧
    (∃ t r, exec (.shiftByte latch value) s = .next t ∧ t.responses = s.responses ++ [r] ∧
      (r = ⟨.ok, 0#32⟩ ∨ r.status = .lineWriteFailed) ∧
      (latch = false → t.line.lat = s.line.lat) ∧ t.line.oe = s.line.oe)

/-- 41_shift R113: the bit-extraction law, of the bit the model shifts: the `i`-th of a byte is bit `7 - i`, as a value, in
the list of bits, and as the event in the trace of SHIFT_BYTE that presents it. -/
def Obligations.ByteBitIsMostSignificantFirst : Prop :=
  (∀ (value : Byte) (i : Nat), i ≤ 7 →
    (((0x80#8 >>> i) &&& value) != 0#8) = value.getLsbD (7 - i) ∧ byteBit value i = value.getLsbD (7 - i) ∧
    (byteBits value)[i]? = some (value.getLsbD (7 - i))) ∧
  (∀ (latch : Bool) (value : Byte) (s : State), s.constructed = true → WritesSucceed (if latch then 34 else 32) s →
    ∃ t, exec (.shiftByte latch value) s = .next t ∧
      ∀ i, i ≤ 7 → t.trace[s.trace.length + 4 * i]? = some ⟨.ser, value.getLsbD (7 - i)⟩)

/-- 41_shift R114: SHIFT_CLEAR on an aligned chain, with the write count, and its error on one that is not. -/
def Obligations.ShiftClearShiftsLatchedZeroBytes : Prop :=
  ∀ s : State, s.constructed = true →
    (s.cfg.bitLength.toNat % 8 ≠ 0 → exec .shiftClear s = .next (respond .configNotByteAligned s.cfg.bitLength s)) ∧
    (s.cfg.bitLength.toNat % 8 = 0 → WritesSucceed (34 * (s.cfg.bitLength.toNat / 8)) s →
      ∃ t, exec .shiftClear s = .next t ∧
        t.trace = s.trace ++ (List.replicate (s.cfg.bitLength.toNat / 8)
          ((List.replicate 8 [⟨.ser, false⟩, ⟨.clk, true⟩, ⟨.ser, false⟩, ⟨.clk, false⟩]).flatten ++
            [⟨.lat, true⟩, ⟨.lat, false⟩])).flatten ∧
        t.trace.length = s.trace.length + 34 * (s.cfg.bitLength.toNat / 8) ∧
        t.responses = s.responses ++ [⟨.ok, 0#32⟩]) ∧
    (s.cfg.bitLength.toNat % 8 = 0 → ∃ t r, exec .shiftClear s = .next t ∧ t.responses = s.responses ++ [r] ∧
      (r = ⟨.ok, 0#32⟩ ∨ r.status = .lineWriteFailed))

/-- 41_shift R115: a SHIFT_CLEAR that fails its alignment check leaves everything but the host's responses as it was, and
the engine is still constructed. -/
def Obligations.MisalignedClearIsWholeFailure : Prop :=
  ∀ s t : State, s.constructed = true → s.cfg.bitLength.toNat % 8 ≠ 0 → exec .shiftClear s = .next t →
    t.line = s.line ∧ t.trace = s.trace ∧ t.cfg = s.cfg ∧ t.constructed = true ∧ t.queue = s.queue ∧ t.dev = s.dev ∧
    t.responses = s.responses ++ [⟨.configNotByteAligned, s.cfg.bitLength⟩]

/-- 42_latch_output R130: LATCH. -/
def Obligations.LatchIssuesOnePulse : Prop :=
  ∀ s : State, s.constructed = true →
    (WritesSucceed 2 s → ∃ t, exec .latch s = .next t ∧
      t.trace = s.trace ++ [⟨.lat, true⟩, ⟨.lat, false⟩] ∧
      t.responses = s.responses ++ [⟨.ok, 0#32⟩] ∧ level t .lat = some false ∧
      (DeviceKnown s → level s .lat = some false →
        t.dev.out = s.dev.stage ∧ t.dev.stage = s.dev.stage)) ∧
    (∃ t r, exec .latch s = .next t ∧ t.responses = s.responses ++ [r] ∧
      (r = ⟨.ok, 0#32⟩ ∨ r.status = .lineWriteFailed) ∧
      t.line.ser = s.line.ser ∧ t.line.clk = s.line.clk ∧ t.line.oe = s.line.oe)

/-- 42_latch_output R131: ENABLE_OUTPUT, with the line present and absent. -/
def Obligations.EnableOutputWritesOeWhenPresent : Prop :=
  ∀ (value : Bool) (s : State), s.constructed = true →
    (s.cfg.present.oe = false → exec (.enableOutput value) s = .next (respond .ok 0#32 s)) ∧
    (s.cfg.present.oe = true → WritesSucceed 1 s → ∃ t, exec (.enableOutput value) s = .next t ∧
      t.trace = s.trace ++ [⟨.oe, value⟩] ∧ level t .oe = some value ∧ t.responses = s.responses ++ [⟨.ok, 0#32⟩]) ∧
    (∃ t r, exec (.enableOutput value) s = .next t ∧ t.responses = s.responses ++ [r] ∧
      (r = ⟨.ok, 0#32⟩ ∨ (r.status = .lineWriteFailed ∧ s.cfg.present.oe = true)) ∧
      t.line.ser = s.line.ser ∧ t.line.clk = s.line.clk ∧ t.line.lat = s.line.lat)

/-- 43_status R140: GET_BIT_LENGTH; its words with a nonzero field are illegal, and before construction it answers
NOT_CONSTRUCTED. -/
def Obligations.GetBitLengthAnswersN : Prop :=
  (∀ s : State, s.constructed = true →
    exec .getBitLength s = .next { s with responses := s.responses ++ [⟨.ok, s.cfg.bitLength⟩] }) ∧
  (∀ s : State, s.constructed = false →
    exec .getBitLength s = .next { s with responses := s.responses ++ [⟨.notConstructed, 0#32⟩] }) ∧
  (∀ w : CmdWord, w.extractLsb' 12 4 = 0x6#4 → w ≠ 0x6000#16 → ∃ why, decode w = .illegal why)

/-- 42_latch_output R132: after a second LATCH the lines and the device are as after one (its outputs too, unless OE is
present at an unknown level); only the trace differs, by two events. -/
def Obligations.SecondLatchChangesOnlyTheTrace : Prop :=
  ∀ s t u : State, s.constructed = true → WritesSucceed 4 s → DeviceKnown s → level s .lat = some false →
    exec .latch s = .next t → exec .latch t = .next u →
    t.trace = s.trace ++ [⟨.lat, true⟩, ⟨.lat, false⟩] ∧ u.trace = t.trace ++ [⟨.lat, true⟩, ⟨.lat, false⟩] ∧
    u.line = t.line ∧ u.dev.stage = t.dev.stage ∧ u.dev.out = t.dev.out ∧ u.cfg = t.cfg ∧
    u.constructed = t.constructed ∧
    (s.cfg.present.oe = false ∨ level s .oe ≠ none → u.dev.outputs = t.dev.outputs)

/-- 70_reset_and_hazards R214: the number of writes of every operation, on success, on an error, and at most on a failed
write. -/
def Obligations.WriteCountsAreTheTables : Prop :=
  (∀ (i : Instr) (s : State),
    (s.constructed = true → Precondition i s → WritesSucceed (successWrites i s) s →
      ∃ t, exec i s = .next t ∧ t.trace.length = s.trace.length + successWrites i s ∧
        t.responses = s.responses ++ [⟨.ok, successData i s⟩]) ∧
    (s.constructed = false ∨ ¬ Precondition i s → ∃ t, exec i s = .next t ∧ t.trace = s.trace) ∧
    (∀ t, exec i s = .next t → t.trace.length ≤ s.trace.length + successWrites i s)) ∧
  (∀ (s : State) (w : CmdWord), IllegalWord w → ∃ t, runWord w s = .next t ∧ t.trace = s.trace) ∧
  (∀ (c : ConstructRecord) (s t : State), construct c s = .next t →
    (t.responses = s.responses ++ [⟨.ok, 0#32⟩] →
      t.trace.length = s.trace.length + (if c.present.getLsbD 3 then 4 else 3)) ∧
    ((∃ data, t.responses = s.responses ++ [⟨.configMissingLine, data⟩]) → t.trace = s.trace) ∧
    t.trace.length ≤ s.trace.length + (if c.present.getLsbD 3 then 4 else 3))

/-- The frame of the shift commands: SER, CLK and (with a latch) LAT are theirs; nothing else is. That under IO_DEFERRED no
pin changes inside a command is the model's choice, log 11. -/
def Obligations.ShiftCommandsFrame : Prop :=
  ∀ (i : Instr) (s t : State), (∃ b, i = .shiftBit b) ∨ (∃ l v, i = .shiftByte l v) ∨ i = .shiftClear →
    exec i s = .next t →
    t.par = s.par ∧ t.constructed = s.constructed ∧ t.cfg = s.cfg ∧ t.pending = s.pending ∧ t.hpc = s.hpc ∧
    t.ticks = s.ticks ∧ t.line.oe = s.line.oe ∧
    ((∃ b, i = .shiftBit b) ∨ (∃ v, i = .shiftByte false v) → t.line.lat = s.line.lat) ∧
    (∀ l, (t.line.get l).pinId = (s.line.get l).pinId ∧ (t.line.get l).activeHigh = (s.line.get l).activeHigh ∧
      (t.line.get l).variant = (s.line.get l).variant) ∧
    (s.par.ioDeferred = false → t.queue = s.queue) ∧
    (s.par.ioDeferred = true → ∀ l, (t.line.get l).pin = (s.line.get l).pin) ∧
    (∃ es, es <+: commandWrites i s ∧ t.trace = s.trace ++ es) ∧ (∃ r, t.responses = s.responses ++ [r])

/-- The frame of LATCH and ENABLE_OUTPUT: LAT is the one's, OE the other's (and not when absent); nothing else is. That under
IO_DEFERRED no pin changes inside a command is the model's choice, log 11. -/
def Obligations.LatchAndOutputFrame : Prop :=
  ∀ (i : Instr) (s t : State), i = .latch ∨ (∃ b, i = .enableOutput b) → exec i s = .next t →
    t.par = s.par ∧ t.constructed = s.constructed ∧ t.cfg = s.cfg ∧ t.pending = s.pending ∧ t.hpc = s.hpc ∧
    t.ticks = s.ticks ∧ t.line.ser = s.line.ser ∧ t.line.clk = s.line.clk ∧
    (i = .latch → t.line.oe = s.line.oe) ∧ (i ≠ .latch → t.line.lat = s.line.lat) ∧
    (i ≠ .latch → s.cfg.present.oe = false → t.line.oe = s.line.oe ∧ t.dev = s.dev ∧ t.trace = s.trace) ∧
    (∀ l, (t.line.get l).pinId = (s.line.get l).pinId ∧ (t.line.get l).activeHigh = (s.line.get l).activeHigh ∧
      (t.line.get l).variant = (s.line.get l).variant) ∧
    (s.par.ioDeferred = false → t.queue = s.queue) ∧
    (s.par.ioDeferred = true → ∀ l, (t.line.get l).pin = (s.line.get l).pin) ∧
    (∃ es, es <+: commandWrites i s ∧ t.trace = s.trace ++ es) ∧ (∃ r, t.responses = s.responses ++ [r])

/-! ## Errors -/

/-- 60_exceptions R153: an illegal word changes nothing but the host's responses and its position, constructed or not. -/
def Obligations.IllegalWordIsReportedAndIgnored : Prop :=
  ∀ (s : State) (w : CmdWord), IllegalWord w →
    runWord w s = .next { s with responses := s.responses ++ [⟨.illegalCommand, w.setWidth 32⟩] }

/-- 60_exceptions R154: any legal command before construction. -/
def Obligations.CommandBeforeConstructionIsReported : Prop :=
  ∀ (s : State) (w : CmdWord), ¬ IllegalWord w → s.constructed = false →
    runWord w s = .next { s with responses := s.responses ++ [⟨.notConstructed, 0#32⟩] }

/-- 60_exceptions R152: exactly a SHIFT_CLEAR on a constructed engine whose N is not a multiple of 8 answers
CONFIG_NOT_BYTE_ALIGNED, with DATA N, and changes nothing; no command answers CONFIG_MISSING_LINE. -/
def Obligations.OnlyMisalignedClearIsAConfigurationError : Prop :=
  ∀ (i : Instr) (s : State),
    ((s.constructed = true ∧ i = .shiftClear ∧ s.cfg.bitLength.toNat % 8 ≠ 0) →
      exec i s = .next { s with responses := s.responses ++ [⟨.configNotByteAligned, s.cfg.bitLength⟩] }) ∧
    (∀ t data, exec i s = .next t → t.responses = s.responses ++ [⟨.configNotByteAligned, data⟩] →
      s.constructed = true ∧ i = .shiftClear ∧ s.cfg.bitLength.toNat % 8 ≠ 0) ∧
    (∀ t data, exec i s = .next t → t.responses ≠ s.responses ++ [⟨.configMissingLine, data⟩])

/-- 60_exceptions R155: a write that fails stops its command: the earlier writes stand, the failed write is the last in the
trace, its line's level and S, Q and Y are free values (log 7), and the response names it. -/
def Obligations.FailedWriteStopsItsCommand : Prop :=
  ∀ (i : Instr) (s : State) (j : Nat) (e : Event), s.constructed = true → Precondition i s →
    FirstFailureAt j s → (commandWrites i s)[j]? = some e →
    ∃ t, exec i s = .next t ∧
      t.trace = s.trace ++ (commandWrites i s).take (j + 1) ∧
      t.responses = s.responses ++ [⟨.lineWriteFailed, (eventCode e).setWidth 32⟩] ∧
      level t e.line = some (Config.freeLevel (s.draws + j)) ∧
      (∀ l, l ≠ e.line → level t l = ((commandWrites i s).take j).foldl
        (fun v d => if d.line = l then some d.value else v) (level s l)) ∧
      t.dev = freeDevice (s.draws + j) s.par.devLen (some 0) ∧ t.constructed = true ∧ t.cfg = s.cfg

/-- 70_reset_and_hazards R204 (its last sentence) and 60_exceptions R155: a construction whose write fails has already set
`cfg` and `constructed`. The failed line's level and S, Q and Y are free values, the model's form of "any value" (log 7). -/
def Obligations.FailedConstructionWriteLeavesEngineConstructed : Prop :=
  ∀ (r : ConstructRecord) (s : State) (j : Nat) (e : Event),
    1 ≤ r.bitLength.toNat → r.bitLength.toNat ≤ s.par.bitLengthMax.toNat →
    r.present.getLsbD 0 = true → r.present.getLsbD 1 = true → r.present.getLsbD 2 = true →
    FirstFailureAt j s → (constructWrites (r.present.getLsbD 3))[j]? = some e →
    ∃ t, construct r s = .next t ∧ t.constructed = true ∧
      t.cfg = ⟨⟨true, true, true, r.present.getLsbD 3⟩, r.bitLength⟩ ∧
      t.trace = s.trace ++ (constructWrites (r.present.getLsbD 3)).take (j + 1) ∧
      t.responses = s.responses ++ [⟨.lineWriteFailed, (eventCode e).setWidth 32⟩] ∧
      level t e.line = some (Config.freeLevel (s.draws + j)) ∧
      t.dev = freeDevice (s.draws + j) s.par.devLen (some 0)

/-- 60_exceptions R157: every error but LINE_WRITE_FAILED leaves the state exactly as it was, the response apart. -/
def Obligations.ErrorsArePrecise : Prop :=
  (∀ (i : Instr) (s t : State) (r : Response), exec i s = .next t → t.responses = s.responses ++ [r] →
    r.status ≠ .ok → r.status ≠ .lineWriteFailed → t = { s with responses := s.responses ++ [r] }) ∧
  (∀ (c : ConstructRecord) (s t : State) (r : Response), construct c s = .next t → t.responses = s.responses ++ [r] →
    r.status ≠ .ok → r.status ≠ .lineWriteFailed → t = { s with responses := s.responses ++ [r] })

/-! ## Whole-machine rules -/

/-- 10_state R36: in the absence of write failures every step keeps the rest levels of a constructed engine, and a
successful construction establishes them from any state, write failures before it or not. -/
def Obligations.RestLevelsHoldBetweenCommands : Prop :=
  (∀ s t : State, s.par.lineWriteCanFail = false → (s.constructed = true → AtRest s) → step s = .next t →
    (t.constructed = true → AtRest t)) ∧
  (∀ (r : ConstructRecord) (s t : State), construct r s = .next t → t.responses = s.responses ++ [⟨.ok, 0#32⟩] → AtRest t) ∧
  (∀ (i : Instr) (s t : State) (data : Data), AtRest s → exec i s = .next t →
    t.responses = s.responses ++ [⟨.ok, data⟩] → AtRest t)

/-- 10_state R37: construction sets OE to true, and afterwards only ENABLE_OUTPUT changes it. -/
def Obligations.OnlyEnableOutputChangesOe : Prop :=
  (∀ (r : ConstructRecord) (s t : State), construct r s = .next t → t.responses = s.responses ++ [⟨.ok, 0#32⟩] →
    r.present.getLsbD 3 = true → level t .oe = some true) ∧
  (∀ (i : Instr) (s t : State), exec i s = .next t → t.line.oe ≠ s.line.oe →
    ∃ value, i = .enableOutput value ∧ s.cfg.present.oe = true) ∧
  (∀ (s t : State) (w : CmdWord) (rest : List HostMove), s.pending = .command w :: rest → step s = .next t →
    level t .oe ≠ level s .oe → ∃ value, decode w = .instr (.enableOutput value))

/-- 20_memory R59: the engine never reads a line or the device: two states that agree on the engine's existence, its
configuration and what the lines will report give the same response and the same writes, whatever the levels, pins, queue,
device, trace, line variants and free values, and agree on all of that again; and so does a construction. -/
def Obligations.EngineNeverReadsLinesOrDevice : Prop :=
  (∀ (i : Instr) (s u : State), s.constructed = u.constructed → s.cfg = u.cfg →
    s.par.lineWriteCanFail = u.par.lineWriteCanFail → s.lineReports = u.lineReports →
    ∃ s' u' r es, exec i s = .next s' ∧ exec i u = .next u' ∧
      s'.responses = s.responses ++ [r] ∧ u'.responses = u.responses ++ [r] ∧
      s'.trace = s.trace ++ es ∧ u'.trace = u.trace ++ es ∧
      s'.constructed = u'.constructed ∧ s'.cfg = u'.cfg ∧ s'.lineReports = u'.lineReports) ∧
  (∀ (c : ConstructRecord) (s u : State), s.constructed = u.constructed → s.cfg = u.cfg →
    s.par.bitLengthMax = u.par.bitLengthMax →
    s.par.lineWriteCanFail = u.par.lineWriteCanFail → s.lineReports = u.lineReports →
    (construct c s = .refused .bitLengthOutOfRange ∧ construct c u = .refused .bitLengthOutOfRange) ∨
    ∃ s' u' r es, construct c s = .next s' ∧ construct c u = .next u' ∧
      s'.responses = s.responses ++ [r] ∧ u'.responses = u.responses ++ [r] ∧
      s'.trace = s.trace ++ es ∧ u'.trace = u.trace ++ es ∧
      s'.constructed = u'.constructed ∧ s'.cfg = u'.cfg ∧ s'.lineReports = u'.lineReports)

/-- Every command answers the host with a next state and exactly one response, whatever the state. -/
def Obligations.EveryCommandAnswersOnce : Prop :=
  ∀ (i : Instr) (s : State), ∃ t r, exec i s = .next t ∧ t.responses = s.responses ++ [r] ∧
    r.status ≠ .configMissingLine ∧ r.status ≠ .illegalCommand

/-- The invariant holds at power-up, whatever the parameters, pin identifiers, polarities and variants, and so at reset. -/
def Obligations.PowerUpMeetsTheInvariant : Prop :=
  (∀ (p : Params) (pins : PerLine Nat) (pol : PerLine Bool) (var : PerLine LineVariant),
    StateInv (State.powerUp p pins pol var)) ∧ StateInv State.reset

/-- Every step keeps the invariant: mandatory lines, range of N, device length, levels equal to the last event of each line,
rest levels, the pins of hardware lines at their physical levels once the queue drains, those of recording fakes never
driven, and no queue where writes land at once. That a hardware line's pin follows its level after a failed write too is
the model's choice, log 9. -/
def Obligations.StepKeepsTheInvariant : Prop := ∀ s t : State, StateInv s → step s = .next t → StateInv t

/-! ## The attached device (reference observer) -/

/-- 60_exceptions R172, R173 and R174: what one write does to S and Q when the level before it is known; with SER unknown
the bit shifted in is a free value, the model's form of "any value" (log 7). -/
def Obligations.EdgesShiftAndLoad : Prop :=
  ∀ (e : Event) (s : State), DeviceKnown s → writeFails s = false → DeviceSized s →
    (e = ⟨.clk, true⟩ → level s .clk = some false →
      (lineWrite e s).dev.out = s.dev.out ∧
      (∀ b, level s .ser = some b → 0 < s.par.devLen → (lineWrite e s).dev.stage[0]? = some b) ∧
      (level s .ser = none → 0 < s.par.devLen → (lineWrite e s).dev.stage[0]? = some (Config.freeStage s.draws 0)) ∧
      (∀ p, p + 1 < s.par.devLen → (lineWrite e s).dev.stage[p + 1]? = s.dev.stage[p]?) ∧
      (lineWrite e s).dev.stage.length = s.par.devLen) ∧
    (e = ⟨.lat, true⟩ → level s .lat = some false →
      (lineWrite e s).dev.out = s.dev.stage ∧ (lineWrite e s).dev.stage = s.dev.stage) ∧
    ((e.line = .ser ∨ e.line = .oe ∨ e.value = false ∨ level s e.line = some true) →
      (lineWrite e s).dev.stage = s.dev.stage ∧ (lineWrite e s).dev.out = s.dev.out)

/-- 60_exceptions R176: the outputs after any write follow the output stage and OE; with OE unknown they are free values
(log 7). -/
def Obligations.OutputsFollowStageAndOe : Prop :=
  ∀ (e : Event) (s : State), DeviceKnown s → writeFails s = false →
    (s.cfg.present.oe = false → (lineWrite e s).dev.outputs = (lineWrite e s).dev.out.map .driven) ∧
    (s.cfg.present.oe = true → level (lineWrite e s) .oe = some false →
      (lineWrite e s).dev.outputs = (lineWrite e s).dev.out.map .driven) ∧
    (s.cfg.present.oe = true → level (lineWrite e s) .oe = some true →
      (lineWrite e s).dev.outputs = List.replicate (lineWrite e s).dev.out.length .z) ∧
    (s.cfg.present.oe = true → level (lineWrite e s) .oe = none →
      (lineWrite e s).dev.outputs = (List.range s.par.devLen).map (Config.freeOutput s.draws))

/-- 60_exceptions R171: where the observer's conditions fail, every write leaves S, Q and Y at free values (log 7). -/
def Obligations.ObserverClaimsNothingOutsideItsConditions : Prop :=
  ∀ (e : Event) (s : State), observerApplies s = false →
    ∃ k, (lineWrite e s).dev = freeDevice s.draws s.par.devLen k

/-- 60_exceptions R171(d) and R178: while a failed write is outstanding, with `k` clock edges since it, a write that does not
fail and is no re-establishing latch edge leaves the output stage, the outputs and every position not shifted in since at
free values (log 7). A latch edge after DEV_LEN clock edges re-establishes the device. How edges are counted is the model's
reading, log 10. -/
def Obligations.FailedWriteStaysOutstandingUntilReestablished : Prop :=
  ∀ (e : Event) (s : State) (k : Nat), observerApplies s = true → s.dev.unsettled = some k → DeviceSized s →
    writeFails s = false →
    (¬ (e = ⟨.lat, true⟩ ∧ level s .lat = some false ∧ s.par.devLen ≤ k) →
      (lineWrite e s).dev.out = (List.range s.par.devLen).map (Config.freeOut s.draws) ∧
      (lineWrite e s).dev.outputs = (List.range s.par.devLen).map (Config.freeOutput s.draws) ∧
      (e = ⟨.clk, true⟩ → level s .clk = some false →
        (lineWrite e s).dev.unsettled = some (k + 1) ∧
        (∀ b, level s .ser = some b → 0 < s.par.devLen → (lineWrite e s).dev.stage[0]? = some b) ∧
        (∀ p, p < k → p + 1 < s.par.devLen → (lineWrite e s).dev.stage[p + 1]? = s.dev.stage[p]?) ∧
        (∀ p, k < p → p < s.par.devLen → (lineWrite e s).dev.stage[p]? = some (Config.freeStage s.draws p))) ∧
      (e = ⟨.clk, true⟩ → level s .clk = none →
        (lineWrite e s).dev.unsettled = some 0 ∧
        (lineWrite e s).dev.stage = (List.range s.par.devLen).map (Config.freeStage s.draws)) ∧
      (¬ (e = ⟨.clk, true⟩ ∧ level s .clk ≠ some true) →
        (lineWrite e s).dev.unsettled = some k ∧
        (∀ p, p < k → p < s.par.devLen → (lineWrite e s).dev.stage[p]? = s.dev.stage[p]?) ∧
        (∀ p, k ≤ p → p < s.par.devLen → (lineWrite e s).dev.stage[p]? = some (Config.freeStage s.draws p)))) ∧
    (e = ⟨.lat, true⟩ → level s .lat = some false → s.par.devLen ≤ k →
      (lineWrite e s).dev.unsettled = none ∧ (lineWrite e s).dev.stage = s.dev.stage ∧
      (lineWrite e s).dev.out = s.dev.stage)

/-- 60_exceptions R175: a rising edge from an unknown level leaves the stage at free values (log 7); where writes cannot
fail, a constructed engine has no such level (log 19). -/
def Obligations.EdgeFromUnknownLevelForgetsTheStage : Prop :=
  (∀ s : State, DeviceKnown s → writeFails s = false →
    (level s .clk = none →
      (lineWrite ⟨.clk, true⟩ s).dev.stage = (List.range s.par.devLen).map (Config.freeStage s.draws) ∧
      (lineWrite ⟨.clk, true⟩ s).dev.out = s.dev.out) ∧
    (level s .lat = none →
      (lineWrite ⟨.lat, true⟩ s).dev.out = (List.range s.par.devLen).map (Config.freeOut s.draws) ∧
      (lineWrite ⟨.lat, true⟩ s).dev.stage = s.dev.stage)) ∧
  (∀ s : State, StateInv s → s.par.lineWriteCanFail = false → s.constructed = true →
    level s .clk ≠ none ∧ level s .lat ≠ none)

/-- 41_shift R111: SHIFT_BIT advances the shift stage by one position and leaves the output stage. -/
def Obligations.ShiftBitAdvancesTheShiftStage : Prop :=
  ∀ (value : Bool) (s : State), s.constructed = true → WritesSucceed 4 s → DeviceKnown s → level s .clk = some false →
    ∃ t, exec (.shiftBit value) s = .next t ∧
      t.dev.stage = (value :: s.dev.stage).take s.par.devLen ∧ t.dev.out = s.dev.out

/-- 41_shift R118 with 60_exceptions R178: `k` SHIFT_BYTE commands, only the last with a latch, covering the chain, leave
stage, output stage and (with the outputs enabled) the outputs at the value sent, position by position; an earlier failed
write is made good by it, as log 10 reads R178. -/
def Obligations.CompleteShiftLoadsTheChain : Prop :=
  ∀ (bytes : List Byte) (rest : List HostMove) (s : State),
    bytes ≠ [] → s.par.devLen ≤ 8 * bytes.length → s.pending = chainMoves bytes ++ rest →
    s.constructed = true → AtRest s → observerApplies s = true → DeviceSized s →
    WritesSucceed (32 * bytes.length + 2) s →
    ∃ t : State, Sys2Proof.core.run bytes.length s = .next t ∧ t.pending = rest ∧ t.hpc = s.hpc + bytes.length ∧
      t.dev.out.length = s.par.devLen ∧ t.dev.stage = t.dev.out ∧ t.dev.unsettled = none ∧
      (∀ p, p < s.par.devLen → t.dev.out[p]? = some ((chainValue bytes).testBit p)) ∧
      (s.cfg.present.oe = false ∨ level s .oe = some false → t.dev.outputs = t.dev.out.map .driven)

/-- 70_reset_and_hazards R209: the output stage after the `k`-th latch pulse of a SHIFT_CLEAR. -/
def Obligations.ShiftClearShowsIntermediateContents : Prop :=
  ∀ (s : State) (k : Nat), s.cfg.bitLength.toNat % 8 = 0 → s.par.devLen = s.cfg.bitLength.toNat →
    1 ≤ k → k ≤ s.cfg.bitLength.toNat / 8 → WritesSucceed (34 * k) s → AtRest s → DeviceKnown s → DeviceSized s →
    (runWrites ((clearWrites s.cfg.bitLength.toNat).take (34 * k)) s).1.dev.out =
      List.replicate (8 * k) false ++ s.dev.stage.take (s.par.devLen - 8 * k)

/-- 70_reset_and_hazards R211: SHIFT_CLEAR clears the N positions nearest the input, whatever the chain's real length, and
answers OK. -/
def Obligations.ShiftClearClearsDeclaredLengthOnly : Prop :=
  ∀ s : State, s.constructed = true → s.cfg.bitLength.toNat % 8 = 0 → 0 < s.cfg.bitLength.toNat →
    WritesSucceed (34 * (s.cfg.bitLength.toNat / 8)) s → AtRest s → DeviceKnown s → DeviceSized s →
    ∃ t, exec .shiftClear s = .next t ∧ t.responses = s.responses ++ [⟨.ok, 0#32⟩] ∧
      t.dev.stage = t.dev.out ∧ t.dev.out.length = s.par.devLen ∧
      (∀ p, p < s.par.devLen → p < s.cfg.bitLength.toNat → t.dev.out[p]? = some false) ∧
      (∀ p, p < s.par.devLen → s.cfg.bitLength.toNat ≤ p →
        t.dev.out[p]? = s.dev.stage[p - s.cfg.bitLength.toNat]?)

/-- 70_reset_and_hazards R201: with OE present the outputs are high impedance after construction, and no command but
ENABLE_OUTPUT 0 ends that, short of a failed write; the same of the steps of a run. -/
def Obligations.OutputsStayDisabledUntilEnabled : Prop :=
  (∀ (r : ConstructRecord) (s t : State), construct r s = .next t → t.responses = s.responses ++ [⟨.ok, 0#32⟩] →
    r.present.getLsbD 3 = true → DeviceKnown (newEngine r s) → OutputsDisabled t) ∧
  (∀ (i : Instr) (s t : State) (r : Response), exec i s = .next t → t.responses = s.responses ++ [r] →
    r.status ≠ .lineWriteFailed → i ≠ .enableOutput false → OutputsDisabled s → OutputsDisabled t) ∧
  (∀ (s t : State) (w : CmdWord) (rest : List HostMove) (r : Response), s.pending = .command w :: rest →
    step s = .next t → t.responses = s.responses ++ [r] → r.status ≠ .lineWriteFailed →
    decode w ≠ .instr (.enableOutput false) → OutputsDisabled s → OutputsDisabled t)
end

