-- ==== Sys2Proof/Laws/State.lean ====
section
/-! SUPPORT. One lemma per field per state update, true by `rfl`, so that no later proof unfolds a record update. -/

namespace Sys2Proof.Machine

section

variable (l : Line) (v : Bool) (s : State)

@[simp] theorem setLevel_par : (setLevel l v s).par = s.par := rfl
@[simp] theorem setLevel_constructed : (setLevel l v s).constructed = s.constructed := rfl
@[simp] theorem setLevel_cfg : (setLevel l v s).cfg = s.cfg := rfl
theorem setLevel_line : (setLevel l v s).line = s.line.set l { s.line.get l with lvl := some v } := rfl
@[simp] theorem setLevel_trace : (setLevel l v s).trace = s.trace := rfl
@[simp] theorem setLevel_queue : (setLevel l v s).queue = s.queue := rfl
@[simp] theorem setLevel_dev : (setLevel l v s).dev = s.dev := rfl
@[simp] theorem setLevel_pending : (setLevel l v s).pending = s.pending := rfl
@[simp] theorem setLevel_hpc : (setLevel l v s).hpc = s.hpc := rfl
@[simp] theorem setLevel_responses : (setLevel l v s).responses = s.responses := rfl
@[simp] theorem setLevel_lineReports : (setLevel l v s).lineReports = s.lineReports := rfl
@[simp] theorem setLevel_ticks : (setLevel l v s).ticks = s.ticks := rfl
@[simp] theorem setLevel_draws : (setLevel l v s).draws = s.draws := rfl

end

section

variable (s : State) (q : QueuedWrite)

@[simp] theorem landWrite_par : (landWrite s q).par = s.par := rfl
@[simp] theorem landWrite_constructed : (landWrite s q).constructed = s.constructed := rfl
@[simp] theorem landWrite_cfg : (landWrite s q).cfg = s.cfg := rfl
@[simp] theorem landWrite_trace : (landWrite s q).trace = s.trace := rfl
@[simp] theorem landWrite_queue : (landWrite s q).queue = s.queue := rfl
@[simp] theorem landWrite_dev : (landWrite s q).dev = s.dev := rfl
@[simp] theorem landWrite_pending : (landWrite s q).pending = s.pending := rfl
@[simp] theorem landWrite_hpc : (landWrite s q).hpc = s.hpc := rfl
@[simp] theorem landWrite_responses : (landWrite s q).responses = s.responses := rfl
@[simp] theorem landWrite_lineReports : (landWrite s q).lineReports = s.lineReports := rfl
@[simp] theorem landWrite_ticks : (landWrite s q).ticks = s.ticks := rfl
@[simp] theorem landWrite_draws : (landWrite s q).draws = s.draws := rfl

end

section

variable (e : Event) (s : State)

@[simp] theorem record_par : (record e s).par = s.par := rfl
@[simp] theorem record_constructed : (record e s).constructed = s.constructed := rfl
@[simp] theorem record_cfg : (record e s).cfg = s.cfg := rfl
@[simp] theorem record_line : (record e s).line = s.line := rfl
@[simp] theorem record_trace : (record e s).trace = s.trace ++ [e] := rfl
@[simp] theorem record_queue : (record e s).queue = s.queue := rfl
@[simp] theorem record_dev : (record e s).dev = s.dev := rfl
@[simp] theorem record_pending : (record e s).pending = s.pending := rfl
@[simp] theorem record_hpc : (record e s).hpc = s.hpc := rfl
@[simp] theorem record_responses : (record e s).responses = s.responses := rfl
@[simp] theorem record_lineReports : (record e s).lineReports = s.lineReports := rfl
@[simp] theorem record_ticks : (record e s).ticks = s.ticks := rfl
@[simp] theorem record_draws : (record e s).draws = s.draws := rfl

end

section

variable (e : Event) (prev : Option Bool) (failed : Bool) (s : State)

@[simp] theorem writeDevice_par : (writeDevice e prev failed s).par = s.par := rfl
@[simp] theorem writeDevice_constructed : (writeDevice e prev failed s).constructed = s.constructed := rfl
@[simp] theorem writeDevice_cfg : (writeDevice e prev failed s).cfg = s.cfg := rfl
@[simp] theorem writeDevice_line : (writeDevice e prev failed s).line = s.line := rfl
@[simp] theorem writeDevice_trace : (writeDevice e prev failed s).trace = s.trace := rfl
@[simp] theorem writeDevice_queue : (writeDevice e prev failed s).queue = s.queue := rfl
@[simp] theorem writeDevice_dev : (writeDevice e prev failed s).dev = if failed then observeFailure s else observe e prev s := rfl
@[simp] theorem writeDevice_pending : (writeDevice e prev failed s).pending = s.pending := rfl
@[simp] theorem writeDevice_hpc : (writeDevice e prev failed s).hpc = s.hpc := rfl
@[simp] theorem writeDevice_responses : (writeDevice e prev failed s).responses = s.responses := rfl
@[simp] theorem writeDevice_lineReports : (writeDevice e prev failed s).lineReports = s.lineReports := rfl
@[simp] theorem writeDevice_ticks : (writeDevice e prev failed s).ticks = s.ticks := rfl
@[simp] theorem writeDevice_draws : (writeDevice e prev failed s).draws = s.draws := rfl

end

section

variable (s : State)

@[simp] theorem useInputs_par : (useInputs s).par = s.par := rfl
@[simp] theorem useInputs_constructed : (useInputs s).constructed = s.constructed := rfl
@[simp] theorem useInputs_cfg : (useInputs s).cfg = s.cfg := rfl
@[simp] theorem useInputs_line : (useInputs s).line = s.line := rfl
@[simp] theorem useInputs_trace : (useInputs s).trace = s.trace := rfl
@[simp] theorem useInputs_queue : (useInputs s).queue = s.queue := rfl
@[simp] theorem useInputs_dev : (useInputs s).dev = s.dev := rfl
@[simp] theorem useInputs_pending : (useInputs s).pending = s.pending := rfl
@[simp] theorem useInputs_hpc : (useInputs s).hpc = s.hpc := rfl
@[simp] theorem useInputs_responses : (useInputs s).responses = s.responses := rfl
@[simp] theorem useInputs_lineReports : (useInputs s).lineReports = if s.par.lineWriteCanFail then s.lineReports.tail else s.lineReports := rfl
@[simp] theorem useInputs_ticks : (useInputs s).ticks = s.ticks := rfl
@[simp] theorem useInputs_draws : (useInputs s).draws = s.draws + 1 := rfl

end

section

variable (status : Status) (data : Data) (s : State)

@[simp] theorem respond_par : (respond status data s).par = s.par := rfl
@[simp] theorem respond_constructed : (respond status data s).constructed = s.constructed := rfl
@[simp] theorem respond_cfg : (respond status data s).cfg = s.cfg := rfl
@[simp] theorem respond_line : (respond status data s).line = s.line := rfl
@[simp] theorem respond_trace : (respond status data s).trace = s.trace := rfl
@[simp] theorem respond_queue : (respond status data s).queue = s.queue := rfl
@[simp] theorem respond_dev : (respond status data s).dev = s.dev := rfl
@[simp] theorem respond_pending : (respond status data s).pending = s.pending := rfl
@[simp] theorem respond_hpc : (respond status data s).hpc = s.hpc := rfl
@[simp] theorem respond_responses : (respond status data s).responses = s.responses ++ [⟨status, data⟩] := rfl
@[simp] theorem respond_lineReports : (respond status data s).lineReports = s.lineReports := rfl
@[simp] theorem respond_ticks : (respond status data s).ticks = s.ticks := rfl
@[simp] theorem respond_draws : (respond status data s).draws = s.draws := rfl

end

section

variable (r : ConstructRecord) (s : State)

@[simp] theorem newEngine_par : (newEngine r s).par = s.par := rfl
@[simp] theorem newEngine_constructed : (newEngine r s).constructed = true := rfl
@[simp] theorem newEngine_cfg : (newEngine r s).cfg = ⟨presentLines r.present, r.bitLength⟩ := rfl
@[simp] theorem newEngine_line : (newEngine r s).line = s.line := rfl
@[simp] theorem newEngine_trace : (newEngine r s).trace = s.trace := rfl
@[simp] theorem newEngine_queue : (newEngine r s).queue = s.queue := rfl
@[simp] theorem newEngine_dev : (newEngine r s).dev = s.dev := rfl
@[simp] theorem newEngine_pending : (newEngine r s).pending = s.pending := rfl
@[simp] theorem newEngine_hpc : (newEngine r s).hpc = s.hpc := rfl
@[simp] theorem newEngine_responses : (newEngine r s).responses = s.responses := rfl
@[simp] theorem newEngine_lineReports : (newEngine r s).lineReports = s.lineReports := rfl
@[simp] theorem newEngine_ticks : (newEngine r s).ticks = s.ticks := rfl
@[simp] theorem newEngine_draws : (newEngine r s).draws = s.draws := rfl

end

section

variable (s : State)

@[simp] theorem takeMove_par : (takeMove s).par = s.par := rfl
@[simp] theorem takeMove_constructed : (takeMove s).constructed = s.constructed := rfl
@[simp] theorem takeMove_cfg : (takeMove s).cfg = s.cfg := rfl
@[simp] theorem takeMove_line : (takeMove s).line = s.line := rfl
@[simp] theorem takeMove_trace : (takeMove s).trace = s.trace := rfl
@[simp] theorem takeMove_queue : (takeMove s).queue = s.queue := rfl
@[simp] theorem takeMove_dev : (takeMove s).dev = s.dev := rfl
@[simp] theorem takeMove_pending : (takeMove s).pending = s.pending.tail := rfl
@[simp] theorem takeMove_hpc : (takeMove s).hpc = s.hpc := rfl
@[simp] theorem takeMove_responses : (takeMove s).responses = s.responses := rfl
@[simp] theorem takeMove_lineReports : (takeMove s).lineReports = s.lineReports := rfl
@[simp] theorem takeMove_ticks : (takeMove s).ticks = s.ticks := rfl
@[simp] theorem takeMove_draws : (takeMove s).draws = s.draws := rfl

end

section

variable (s : State)

@[simp] theorem advanceHpc_par : (advanceHpc s).par = s.par := rfl
@[simp] theorem advanceHpc_constructed : (advanceHpc s).constructed = s.constructed := rfl
@[simp] theorem advanceHpc_cfg : (advanceHpc s).cfg = s.cfg := rfl
@[simp] theorem advanceHpc_line : (advanceHpc s).line = s.line := rfl
@[simp] theorem advanceHpc_trace : (advanceHpc s).trace = s.trace := rfl
@[simp] theorem advanceHpc_queue : (advanceHpc s).queue = s.queue := rfl
@[simp] theorem advanceHpc_dev : (advanceHpc s).dev = s.dev := rfl
@[simp] theorem advanceHpc_pending : (advanceHpc s).pending = s.pending := rfl
@[simp] theorem advanceHpc_hpc : (advanceHpc s).hpc = s.hpc + 1 := rfl
@[simp] theorem advanceHpc_responses : (advanceHpc s).responses = s.responses := rfl
@[simp] theorem advanceHpc_lineReports : (advanceHpc s).lineReports = s.lineReports := rfl
@[simp] theorem advanceHpc_ticks : (advanceHpc s).ticks = s.ticks := rfl
@[simp] theorem advanceHpc_draws : (advanceHpc s).draws = s.draws := rfl

end

section

variable (w : CmdWord) (s : State)

@[simp] theorem placeCommand_par : (placeCommand w s).par = s.par := rfl
@[simp] theorem placeCommand_constructed : (placeCommand w s).constructed = s.constructed := rfl
@[simp] theorem placeCommand_cfg : (placeCommand w s).cfg = s.cfg := rfl
@[simp] theorem placeCommand_line : (placeCommand w s).line = s.line := rfl
@[simp] theorem placeCommand_trace : (placeCommand w s).trace = s.trace := rfl
@[simp] theorem placeCommand_queue : (placeCommand w s).queue = s.queue := rfl
@[simp] theorem placeCommand_dev : (placeCommand w s).dev = s.dev := rfl
@[simp] theorem placeCommand_pending : (placeCommand w s).pending = .command w :: s.pending := rfl
@[simp] theorem placeCommand_hpc : (placeCommand w s).hpc = s.hpc := rfl
@[simp] theorem placeCommand_responses : (placeCommand w s).responses = s.responses := rfl
@[simp] theorem placeCommand_lineReports : (placeCommand w s).lineReports = s.lineReports := rfl
@[simp] theorem placeCommand_ticks : (placeCommand w s).ticks = s.ticks := rfl
@[simp] theorem placeCommand_draws : (placeCommand w s).draws = s.draws := rfl

end

/-! Levels are read from the lines alone. -/

@[simp] theorem level_respond (status : Status) (data : Data) (s : State) (l : Line) :
    level (respond status data s) l = level s l := rfl

@[simp] theorem level_newEngine (r : ConstructRecord) (s : State) (l : Line) : level (newEngine r s) l = level s l := rfl

@[simp] theorem level_takeMove (s : State) (l : Line) : level (takeMove s) l = level s l := rfl

@[simp] theorem level_advanceHpc (s : State) (l : Line) : level (advanceHpc s) l = level s l := rfl

end Sys2Proof.Machine
end

