-- ==== Sys2Proof/Laws/LineWrite.lean ====
section
/-! SUPPORT. What one line write does to each field, said once; everything later cites these lemmas. -/

namespace Sys2Proof

@[simp] theorem PerLine.get_set_same {α : Type} (p : PerLine α) (l : Line) (x : α) : (p.set l x).get l = x := by
  cases l <;> rfl

theorem PerLine.get_set {α : Type} (p : PerLine α) (l m : Line) (x : α) :
    (p.set l x).get m = if m = l then x else p.get m := by
  cases l <;> cases m <;> rfl

theorem PerLine.get_set_other {α : Type} (p : PerLine α) {l m : Line} (x : α) (h : m ≠ l) :
    (p.set l x).get m = p.get m := by
  rw [PerLine.get_set, if_neg h]

theorem PerLine.ext_get {α : Type} {p q : PerLine α} (h : ∀ l, p.get l = q.get l) : p = q := by
  have h1 := h .ser
  have h2 := h .clk
  have h3 := h .lat
  have h4 := h .oe
  cases p
  cases q
  simp_all [PerLine.get]

end Sys2Proof

namespace Sys2Proof.Machine

/-! ## The physical side of a write -/

/-- The three things the physical side of a write can be. -/
theorem drivePin_cases (l : Line) (v : Bool) (s : State) :
    ((s.line.get l).variant = .hardware ∧ s.par.ioDeferred = false ∧ drivePin l v s = landWrite s ⟨l, v⟩) ∨
    ((s.line.get l).variant = .hardware ∧ s.par.ioDeferred = true ∧
      drivePin l v s = { s with queue := s.queue ++ [⟨l, v⟩] }) ∨
    ((s.line.get l).variant = .recordingFake ∧ drivePin l v s = s) := by
  cases hv : (s.line.get l).variant with
  | hardware => cases hd : s.par.ioDeferred <;> simp [drivePin, driveHardware, hv, hd]
  | recordingFake => simp [drivePin, hv]

section

variable (l m : Line) (v : Bool) (s : State)

@[simp] theorem drivePin_par : (drivePin l v s).par = s.par := by
  rcases drivePin_cases l v s with ⟨-, -, h⟩ | ⟨-, -, h⟩ | ⟨-, h⟩ <;> simp [h]
@[simp] theorem drivePin_constructed : (drivePin l v s).constructed = s.constructed := by
  rcases drivePin_cases l v s with ⟨-, -, h⟩ | ⟨-, -, h⟩ | ⟨-, h⟩ <;> simp [h]
@[simp] theorem drivePin_cfg : (drivePin l v s).cfg = s.cfg := by
  rcases drivePin_cases l v s with ⟨-, -, h⟩ | ⟨-, -, h⟩ | ⟨-, h⟩ <;> simp [h]
@[simp] theorem drivePin_trace : (drivePin l v s).trace = s.trace := by
  rcases drivePin_cases l v s with ⟨-, -, h⟩ | ⟨-, -, h⟩ | ⟨-, h⟩ <;> simp [h]
@[simp] theorem drivePin_dev : (drivePin l v s).dev = s.dev := by
  rcases drivePin_cases l v s with ⟨-, -, h⟩ | ⟨-, -, h⟩ | ⟨-, h⟩ <;> simp [h]
@[simp] theorem drivePin_pending : (drivePin l v s).pending = s.pending := by
  rcases drivePin_cases l v s with ⟨-, -, h⟩ | ⟨-, -, h⟩ | ⟨-, h⟩ <;> simp [h]
@[simp] theorem drivePin_hpc : (drivePin l v s).hpc = s.hpc := by
  rcases drivePin_cases l v s with ⟨-, -, h⟩ | ⟨-, -, h⟩ | ⟨-, h⟩ <;> simp [h]
@[simp] theorem drivePin_responses : (drivePin l v s).responses = s.responses := by
  rcases drivePin_cases l v s with ⟨-, -, h⟩ | ⟨-, -, h⟩ | ⟨-, h⟩ <;> simp [h]
@[simp] theorem drivePin_lineReports : (drivePin l v s).lineReports = s.lineReports := by
  rcases drivePin_cases l v s with ⟨-, -, h⟩ | ⟨-, -, h⟩ | ⟨-, h⟩ <;> simp [h]
@[simp] theorem drivePin_ticks : (drivePin l v s).ticks = s.ticks := by
  rcases drivePin_cases l v s with ⟨-, -, h⟩ | ⟨-, -, h⟩ | ⟨-, h⟩ <;> simp [h]
@[simp] theorem drivePin_draws : (drivePin l v s).draws = s.draws := by
  rcases drivePin_cases l v s with ⟨-, -, h⟩ | ⟨-, -, h⟩ | ⟨-, h⟩ <;> simp [h]

@[simp] theorem landWrite_lvl (q : QueuedWrite) : ((landWrite s q).line.get m).lvl = (s.line.get m).lvl := by
  simp only [landWrite, PerLine.get_set]
  split <;> simp_all

@[simp] theorem landWrite_activeHigh (q : QueuedWrite) :
    ((landWrite s q).line.get m).activeHigh = (s.line.get m).activeHigh := by
  simp only [landWrite, PerLine.get_set]
  split <;> simp_all

@[simp] theorem landWrite_pinId (q : QueuedWrite) : ((landWrite s q).line.get m).pinId = (s.line.get m).pinId := by
  simp only [landWrite, PerLine.get_set]
  split <;> simp_all

@[simp] theorem landWrite_variant (q : QueuedWrite) :
    ((landWrite s q).line.get m).variant = (s.line.get m).variant := by
  simp only [landWrite, PerLine.get_set]
  split <;> simp_all

theorem landWrite_pin (q : QueuedWrite) : ((landWrite s q).line.get m).pin =
    if m = q.line then some (physLevel (s.line.get m).activeHigh q.level) else (s.line.get m).pin := by
  simp only [landWrite, PerLine.get_set]
  split <;> simp_all

theorem landWrite_line_other (q : QueuedWrite) (h : m ≠ q.line) : (landWrite s q).line.get m = s.line.get m := by
  simp [landWrite, PerLine.get_set, h]

@[simp] theorem drivePin_lvl : ((drivePin l v s).line.get m).lvl = (s.line.get m).lvl := by
  rcases drivePin_cases l v s with ⟨-, -, h⟩ | ⟨-, -, h⟩ | ⟨-, h⟩ <;> simp [h]

@[simp] theorem drivePin_activeHigh : ((drivePin l v s).line.get m).activeHigh = (s.line.get m).activeHigh := by
  rcases drivePin_cases l v s with ⟨-, -, h⟩ | ⟨-, -, h⟩ | ⟨-, h⟩ <;> simp [h]

@[simp] theorem drivePin_pinId : ((drivePin l v s).line.get m).pinId = (s.line.get m).pinId := by
  rcases drivePin_cases l v s with ⟨-, -, h⟩ | ⟨-, -, h⟩ | ⟨-, h⟩ <;> simp [h]

@[simp] theorem drivePin_variant : ((drivePin l v s).line.get m).variant = (s.line.get m).variant := by
  rcases drivePin_cases l v s with ⟨-, -, h⟩ | ⟨-, -, h⟩ | ⟨-, h⟩ <;> simp [h]

theorem drivePin_line_other (h : m ≠ l) : (drivePin l v s).line.get m = s.line.get m := by
  rcases drivePin_cases l v s with ⟨-, -, h'⟩ | ⟨-, -, h'⟩ | ⟨-, h'⟩ <;> rw [h']
  exact landWrite_line_other m s ⟨l, v⟩ h

theorem setLevel_line_get : (setLevel l v s).line.get m =
    if m = l then { s.line.get m with lvl := some v } else s.line.get m := by
  simp only [setLevel, PerLine.get_set]
  split <;> simp_all

end

/-! ## The line side of a write: `writeLine` -/

section

variable (e : Event) (l : Line) (s : State)

@[simp] theorem writeLine_par : (writeLine e s).par = s.par := by simp [writeLine]
@[simp] theorem writeLine_constructed : (writeLine e s).constructed = s.constructed := by simp [writeLine]
@[simp] theorem writeLine_cfg : (writeLine e s).cfg = s.cfg := by simp [writeLine]
@[simp] theorem writeLine_trace : (writeLine e s).trace = s.trace ++ [e] := by simp [writeLine]
@[simp] theorem writeLine_dev : (writeLine e s).dev = s.dev := by simp [writeLine]
@[simp] theorem writeLine_pending : (writeLine e s).pending = s.pending := by simp [writeLine]
@[simp] theorem writeLine_hpc : (writeLine e s).hpc = s.hpc := by simp [writeLine]
@[simp] theorem writeLine_responses : (writeLine e s).responses = s.responses := by simp [writeLine]
@[simp] theorem writeLine_lineReports : (writeLine e s).lineReports = s.lineReports := by simp [writeLine]
@[simp] theorem writeLine_ticks : (writeLine e s).ticks = s.ticks := by simp [writeLine]
@[simp] theorem writeLine_draws : (writeLine e s).draws = s.draws := by simp [writeLine]

theorem writeLine_lvl : ((writeLine e s).line.get l).lvl =
    if l = e.line then some (writtenLevel e.value s) else (s.line.get l).lvl := by
  simp only [writeLine, record_line, drivePin_lvl, setLevel_line_get]
  split <;> rfl

@[simp] theorem writeLine_activeHigh : ((writeLine e s).line.get l).activeHigh = (s.line.get l).activeHigh := by
  simp only [writeLine, record_line, drivePin_activeHigh, setLevel_line_get]
  split <;> rfl

@[simp] theorem writeLine_pinId : ((writeLine e s).line.get l).pinId = (s.line.get l).pinId := by
  simp only [writeLine, record_line, drivePin_pinId, setLevel_line_get]
  split <;> rfl

@[simp] theorem writeLine_variant : ((writeLine e s).line.get l).variant = (s.line.get l).variant := by
  simp only [writeLine, record_line, drivePin_variant, setLevel_line_get]
  split <;> rfl

theorem writeLine_line_other (h : l ≠ e.line) : (writeLine e s).line.get l = s.line.get l := by
  simp [writeLine, drivePin_line_other, setLevel_line_get, h]

theorem writeLine_queue : (writeLine e s).queue =
    if s.par.ioDeferred = true ∧ (s.line.get e.line).variant = .hardware
    then s.queue ++ [⟨e.line, writtenLevel e.value s⟩] else s.queue := by
  have hv : ((setLevel e.line (writtenLevel e.value s) s).line.get e.line).variant = (s.line.get e.line).variant := by
    simp [setLevel_line_get]
  rcases drivePin_cases e.line (writtenLevel e.value s) (setLevel e.line (writtenLevel e.value s) s) with
    ⟨h1, h2, h⟩ | ⟨h1, h2, h⟩ | ⟨h1, h⟩ <;> rw [hv] at h1 <;> simp_all [writeLine]

theorem writeLine_pin : ((writeLine e s).line.get l).pin =
    if s.par.ioDeferred = false ∧ (s.line.get e.line).variant = .hardware ∧ l = e.line
    then some (physLevel (s.line.get l).activeHigh (writtenLevel e.value s)) else (s.line.get l).pin := by
  have hv : ((setLevel e.line (writtenLevel e.value s) s).line.get e.line).variant = (s.line.get e.line).variant := by
    simp [setLevel_line_get]
  have hp : ((setLevel e.line (writtenLevel e.value s) s).line.get l).pin = (s.line.get l).pin := by
    rw [setLevel_line_get]
    split <;> rfl
  have ha : ((setLevel e.line (writtenLevel e.value s) s).line.get l).activeHigh = (s.line.get l).activeHigh := by
    rw [setLevel_line_get]
    split <;> rfl
  simp only [writeLine, record_line]
  rcases drivePin_cases e.line (writtenLevel e.value s) (setLevel e.line (writtenLevel e.value s) s) with
    ⟨h1, h2, h⟩ | ⟨h1, h2, h⟩ | ⟨h1, h⟩ <;> rw [hv] at h1 <;> rw [h]
  · rw [landWrite_pin, hp, ha]
    simp_all
  · simp_all
  · simp_all

end

/-! ## One line write (40_output_line R91) -/

section

variable (e : Event) (l : Line) (s : State)

@[simp] theorem lineWrite_par : (lineWrite e s).par = s.par := by simp [lineWrite]
@[simp] theorem lineWrite_constructed : (lineWrite e s).constructed = s.constructed := by simp [lineWrite]
@[simp] theorem lineWrite_cfg : (lineWrite e s).cfg = s.cfg := by simp [lineWrite]
@[simp] theorem lineWrite_trace : (lineWrite e s).trace = s.trace ++ [e] := by simp [lineWrite]
@[simp] theorem lineWrite_pending : (lineWrite e s).pending = s.pending := by simp [lineWrite]
@[simp] theorem lineWrite_hpc : (lineWrite e s).hpc = s.hpc := by simp [lineWrite]
@[simp] theorem lineWrite_responses : (lineWrite e s).responses = s.responses := by simp [lineWrite]
@[simp] theorem lineWrite_ticks : (lineWrite e s).ticks = s.ticks := by simp [lineWrite]
@[simp] theorem lineWrite_draws : (lineWrite e s).draws = s.draws + 1 := by simp [lineWrite]

@[simp] theorem lineWrite_lineReports : (lineWrite e s).lineReports =
    if s.par.lineWriteCanFail then s.lineReports.tail else s.lineReports := by simp [lineWrite]

theorem lineWrite_queue : (lineWrite e s).queue =
    if s.par.ioDeferred = true ∧ (s.line.get e.line).variant = .hardware
    then s.queue ++ [⟨e.line, writtenLevel e.value s⟩] else s.queue := by
  simp [lineWrite, writeLine_queue]

@[simp] theorem lineWrite_activeHigh : ((lineWrite e s).line.get l).activeHigh = (s.line.get l).activeHigh := by
  simp [lineWrite]

@[simp] theorem lineWrite_pinId : ((lineWrite e s).line.get l).pinId = (s.line.get l).pinId := by simp [lineWrite]

@[simp] theorem lineWrite_variant : ((lineWrite e s).line.get l).variant = (s.line.get l).variant := by simp [lineWrite]

theorem lineWrite_line_other (h : l ≠ e.line) : (lineWrite e s).line.get l = s.line.get l := by
  simp [lineWrite, writeLine_line_other, h]

theorem lineWrite_pin : ((lineWrite e s).line.get l).pin =
    if s.par.ioDeferred = false ∧ (s.line.get e.line).variant = .hardware ∧ l = e.line
    then some (physLevel (s.line.get l).activeHigh (writtenLevel e.value s)) else (s.line.get l).pin := by
  simp [lineWrite, writeLine_pin]

theorem level_lineWrite : level (lineWrite e s) l = if l = e.line then some (writtenLevel e.value s) else level s l := by
  simp [level, lineWrite, writeLine_lvl]

theorem lineWrite_dev : (lineWrite e s).dev =
    if writeFails s then observeFailure (writeLine e s) else observe e (level s e.line) (writeLine e s) := rfl

end

/-! ## Writes that do not fail -/

theorem writeFails_false {s : State} {n : Nat} (h : WritesSucceed (n + 1) s) : writeFails s = false := by
  rcases h with h | h
  · simp [writeFails, h]
  · cases hr : s.lineReports with
    | nil => simp [writeFails, hr]
    | cons b bs => simp [writeFails, hr, h b (by simp [hr])]

theorem writesSucceed_lineWrite {s : State} {n : Nat} (e : Event) (h : WritesSucceed (n + 1) s) :
    WritesSucceed n (lineWrite e s) := by
  rcases h with h | h
  · exact .inl (by simpa using h)
  · cases hc : s.par.lineWriteCanFail with
    | false => exact .inl (by simpa using hc)
    | true =>
      refine .inr fun b hb => h b ?_
      cases hr : s.lineReports with
      | nil => simp [hc, hr] at hb
      | cons c cs =>
        simp only [lineWrite_lineReports, hc, hr, List.tail_cons, if_true] at hb
        simp only [List.take_succ_cons, List.mem_cons]
        exact .inr hb

theorem writesSucceed_mono {s : State} {m n : Nat} (hmn : m ≤ n) (h : WritesSucceed n s) : WritesSucceed m s := by
  rcases h with h | h
  · exact .inl h
  · exact .inr fun b hb => h b (List.take_subset_take_left _ hmn hb)

theorem writtenLevel_succeeds {s : State} {v : Bool} (h : writeFails s = false) : writtenLevel v s = v := by
  simp [writtenLevel, h]

end Sys2Proof.Machine
end

