-- ==== Sys2Proof/Laws/RunWrites.lean ====
section
/-! SUPPORT. Lists of writes: what they keep, what they append, where they stop, and what they do when none fails. -/

namespace Sys2Proof.Machine

@[simp] theorem runWrites_nil (s : State) : runWrites [] s = (s, none) := rfl

/-- What every single write keeps, a list of writes keeps. -/
theorem runWrites_keeps {P : State → Prop} {ws : List Event}
    (hstep : ∀ e ∈ ws, ∀ s, P s → P (lineWrite e s)) {s : State} (h : P s) : P (runWrites ws s).1 := by
  induction ws generalizing s with
  | nil => exact h
  | cons e es ih =>
    have he := hstep e (by simp) s h
    simp only [runWrites]
    split
    · exact he
    · exact ih (fun e' he' => hstep e' (by simp [he'])) he

section

variable (ws : List Event) (s : State)

@[simp] theorem runWrites_par : (runWrites ws s).1.par = s.par :=
  runWrites_keeps (P := fun t => t.par = s.par) (by simp) rfl
@[simp] theorem runWrites_constructed : (runWrites ws s).1.constructed = s.constructed :=
  runWrites_keeps (P := fun t => t.constructed = s.constructed) (by simp) rfl
@[simp] theorem runWrites_cfg : (runWrites ws s).1.cfg = s.cfg :=
  runWrites_keeps (P := fun t => t.cfg = s.cfg) (by simp) rfl
@[simp] theorem runWrites_pending : (runWrites ws s).1.pending = s.pending :=
  runWrites_keeps (P := fun t => t.pending = s.pending) (by simp) rfl
@[simp] theorem runWrites_hpc : (runWrites ws s).1.hpc = s.hpc :=
  runWrites_keeps (P := fun t => t.hpc = s.hpc) (by simp) rfl
@[simp] theorem runWrites_responses : (runWrites ws s).1.responses = s.responses :=
  runWrites_keeps (P := fun t => t.responses = s.responses) (by simp) rfl
@[simp] theorem runWrites_ticks : (runWrites ws s).1.ticks = s.ticks :=
  runWrites_keeps (P := fun t => t.ticks = s.ticks) (by simp) rfl

@[simp] theorem runWrites_pinId (l : Line) : ((runWrites ws s).1.line.get l).pinId = (s.line.get l).pinId :=
  runWrites_keeps (P := fun t => (t.line.get l).pinId = (s.line.get l).pinId) (by simp) rfl
@[simp] theorem runWrites_variant (l : Line) : ((runWrites ws s).1.line.get l).variant = (s.line.get l).variant :=
  runWrites_keeps (P := fun t => (t.line.get l).variant = (s.line.get l).variant) (by simp) rfl
@[simp] theorem runWrites_activeHigh (l : Line) :
    ((runWrites ws s).1.line.get l).activeHigh = (s.line.get l).activeHigh :=
  runWrites_keeps (P := fun t => (t.line.get l).activeHigh = (s.line.get l).activeHigh) (by simp) rfl

end

/-- A recording fake's pin is driven by no write, and nothing is queued for it (40_output_line R95). -/
theorem runWrites_fake {l : Line} {s : State} (h : (s.line.get l).variant = .recordingFake) (ws : List Event) :
    ((runWrites ws s).1.line.get l).pin = (s.line.get l).pin ∧
      (runWrites ws s).1.queue.filter (fun q => q.line = l) = s.queue.filter (fun q => q.line = l) := by
  refine (runWrites_keeps (P := fun t => (t.line.get l).variant = .recordingFake ∧
    (t.line.get l).pin = (s.line.get l).pin ∧
    t.queue.filter (fun q => q.line = l) = s.queue.filter (fun q => q.line = l))
    (fun e _ t ht => ⟨by simpa using ht.1, ?_, ?_⟩) ⟨h, rfl, rfl⟩).2
  · rw [lineWrite_pin, ← ht.2.1]
    split
    · next hc =>
      obtain ⟨-, hv, rfl⟩ := hc
      rw [ht.1] at hv
      cases hv
    · rfl
  · rw [lineWrite_queue, ← ht.2.2]
    split
    · next hc =>
      have hne : e.line ≠ l := by
        rintro rfl
        rw [ht.1] at hc
        cases hc.2
      simp [hne]
    · rfl

/-- A line none of the writes names is left wholly alone. -/
theorem runWrites_line_other {ws : List Event} {l : Line} (h : ∀ e ∈ ws, l ≠ e.line) (s : State) :
    (runWrites ws s).1.line.get l = s.line.get l :=
  runWrites_keeps (P := fun t => t.line.get l = s.line.get l)
    (fun e he t ht => by rw [lineWrite_line_other e l t (h e he), ht]) rfl

/-- Where writes land at once the queue is left alone. -/
theorem runWrites_queue_direct {s : State} (h : s.par.ioDeferred = false) (ws : List Event) :
    (runWrites ws s).1.queue = s.queue :=
  (runWrites_keeps (P := fun t => t.par = s.par ∧ t.queue = s.queue)
    (fun e _ t ht => by simp [lineWrite_queue, ht.1, ht.2, h]) ⟨rfl, rfl⟩).2

/-- Where writes are queued no pin changes. -/
theorem runWrites_pin_deferred {s : State} (h : s.par.ioDeferred = true) (ws : List Event) (l : Line) :
    ((runWrites ws s).1.line.get l).pin = (s.line.get l).pin :=
  (runWrites_keeps (P := fun t => t.par = s.par ∧ (t.line.get l).pin = (s.line.get l).pin)
    (fun e _ t ht => by simp [lineWrite_pin, ht.1, ht.2, h]) ⟨rfl, rfl⟩).2

/-- What a list of writes appends to the trace: all of it, or all up to and with the one that failed. -/
theorem runWrites_trace (ws : List Event) (s : State) :
    ((runWrites ws s).2 = none ∧ (runWrites ws s).1.trace = s.trace ++ ws) ∨
    ∃ done e rest, ws = done ++ e :: rest ∧ (runWrites ws s).2 = some e ∧
      (runWrites ws s).1.trace = s.trace ++ (done ++ [e]) := by
  induction ws generalizing s with
  | nil => simp
  | cons e es ih =>
    simp only [runWrites]
    split
    · exact .inr ⟨[], e, es, by simp⟩
    · rcases ih (lineWrite e s) with ⟨h1, h2⟩ | ⟨done, e', rest, h1, h2, h3⟩
      · exact .inl ⟨h1, by simpa using h2⟩
      · exact .inr ⟨e :: done, e', rest, by simp [h1], h2, by simpa using h3⟩

theorem runWrites_trace_prefix (ws : List Event) (s : State) :
    ∃ es, es <+: ws ∧ (runWrites ws s).1.trace = s.trace ++ es := by
  rcases runWrites_trace ws s with ⟨-, h⟩ | ⟨done, e, rest, hw, -, h⟩
  · exact ⟨ws, List.prefix_refl ws, h⟩
  · exact ⟨done ++ [e], ⟨rest, by simp [hw]⟩, h⟩

/-- All the writes, one after another. -/
def writeAll (ws : List Event) (s : State) : State := ws.foldl (fun t e => lineWrite e t) s

@[simp] theorem writeAll_nil (s : State) : writeAll [] s = s := rfl

@[simp] theorem writeAll_cons (e : Event) (es : List Event) (s : State) :
    writeAll (e :: es) s = writeAll es (lineWrite e s) := rfl

theorem writeAll_append (us vs : List Event) (s : State) : writeAll (us ++ vs) s = writeAll vs (writeAll us s) := by
  simp [writeAll, List.foldl_append]

/-- When none of the writes fails, they are all carried out. -/
theorem runWrites_succeeds {ws : List Event} {s : State} (h : WritesSucceed ws.length s) :
    runWrites ws s = (writeAll ws s, none) := by
  induction ws generalizing s with
  | nil => rfl
  | cons e es ih =>
    simp only [List.length_cons] at h
    simp only [runWrites, writeFails_false h, writeAll_cons]
    exact ih (writesSucceed_lineWrite e h)

theorem writesSucceed_writeAll {ws : List Event} {s : State} {n : Nat} (h : WritesSucceed (ws.length + n) s) :
    WritesSucceed n (writeAll ws s) := by
  induction ws generalizing s with
  | nil => simpa using h
  | cons e es ih =>
    refine ih (writesSucceed_lineWrite e ?_)
    have : es.length + n + 1 = (e :: es).length + n := by simp; omega
    rw [this]
    exact h

/-- Writes after writes that do not fail. -/
theorem runWrites_append {us : List Event} (vs : List Event) {s : State} (h : WritesSucceed us.length s) :
    runWrites (us ++ vs) s = runWrites vs (writeAll us s) := by
  induction us generalizing s with
  | nil => rfl
  | cons e es ih =>
    simp only [List.length_cons] at h
    simp only [List.cons_append, runWrites, writeFails_false h, writeAll_cons]
    exact ih (writesSucceed_lineWrite e h)

/-- The first failing write is the last one issued (60_exceptions R155). -/
theorem runWrites_fails {ws : List Event} {s : State} {j : Nat} (hj : FirstFailureAt j s) (hlt : j < ws.length) :
    runWrites ws s = (lineWrite ws[j] (writeAll (ws.take j) s), some ws[j]) := by
  induction ws generalizing s j with
  | nil => simp at hlt
  | cons e es ih =>
    obtain ⟨hc, hok, hbad⟩ := hj
    cases hr : s.lineReports with
    | nil => simp [hr] at hbad
    | cons b bs =>
      cases j with
      | zero =>
        have : writeFails s = true := by simp_all [writeFails]
        simp [runWrites, this]
      | succ k =>
        have hb : b = false := hok b (by simp [hr])
        have hf : writeFails s = false := by simp [writeFails, hr, hb]
        have hj' : FirstFailureAt k (lineWrite e s) := by
          refine ⟨by simpa using hc, fun c hc' => hok c ?_, ?_⟩
          · simp only [lineWrite_lineReports, hc, hr, List.tail_cons, if_true] at hc'
            simp [hr, hc']
          · simpa [hc, hr] using hbad
        simp only [runWrites, hf, List.take_succ_cons, writeAll_cons, List.getElem_cons_succ]
        exact ih hj' (by simpa using hlt)

@[simp] theorem writeAll_par (ws : List Event) (s : State) : (writeAll ws s).par = s.par := by
  induction ws generalizing s with
  | nil => rfl
  | cons e es ih => simp [ih]

@[simp] theorem writeAll_cfg (ws : List Event) (s : State) : (writeAll ws s).cfg = s.cfg := by
  induction ws generalizing s with
  | nil => rfl
  | cons e es ih => simp [ih]

@[simp] theorem writeAll_activeHigh (ws : List Event) (s : State) (l : Line) :
    ((writeAll ws s).line.get l).activeHigh = (s.line.get l).activeHigh := by
  induction ws generalizing s with
  | nil => rfl
  | cons e es ih => simp [ih]

@[simp] theorem writeAll_variant (ws : List Event) (s : State) (l : Line) :
    ((writeAll ws s).line.get l).variant = (s.line.get l).variant := by
  induction ws generalizing s with
  | nil => rfl
  | cons e es ih => simp [ih]

/-- The level of a line after writes that do not fail is its last write's, or the one it had. -/
theorem level_writeAll {ws : List Event} {s : State} (h : WritesSucceed ws.length s) (l : Line) :
    level (writeAll ws s) l = ws.foldl (fun v e => if e.line = l then some e.value else v) (level s l) := by
  induction ws generalizing s with
  | nil => rfl
  | cons e es ih =>
    simp only [List.length_cons] at h
    rw [writeAll_cons, ih (writesSucceed_lineWrite e h), List.foldl_cons, level_lineWrite,
      writtenLevel_succeeds (writeFails_false h)]
    simp only [eq_comm]

/-- A list of writes that ended without a failure carried all of them out, and left each line at its last write. -/
theorem runWrites_none {ws : List Event} {s : State} (h : (runWrites ws s).2 = none) :
    runWrites ws s = (writeAll ws s, none) ∧
      ∀ l, level (writeAll ws s) l = ws.foldl (fun v e => if e.line = l then some e.value else v) (level s l) := by
  induction ws generalizing s with
  | nil => exact ⟨rfl, fun _ => rfl⟩
  | cons e es ih =>
    cases hf : writeFails s with
    | true => simp [runWrites, hf] at h
    | false =>
      simp only [runWrites, hf] at h ⊢
      obtain ⟨h1, h2⟩ := ih h
      refine ⟨h1, fun l => ?_⟩
      rw [writeAll_cons, h2 l, List.foldl_cons, level_lineWrite, writtenLevel_succeeds hf]
      simp only [eq_comm]

end Sys2Proof.Machine
end

