-- ==== Sys2Proof/Laws/Commands.lean ====
section
/-! SUPPORT. What `exec` can do, said once: an error response that leaves the rest alone, or the command's writes and the
response that ends them. -/

namespace Sys2Proof.Machine

theorem exec_not_constructed {s : State} (h : s.constructed = false) (i : Instr) :
    exec i s = .next (respond .notConstructed 0#32 s) := by
  cases i <;>
    simp [exec, execShiftBit, execShiftByte, execShiftClear, execLatch, execEnableOutput, execGetBitLength,
      requireEngine, raise, h]

theorem exec_clear_misaligned {s : State} (hc : s.constructed = true) (h : s.cfg.bitLength.toNat % 8 ≠ 0) :
    exec .shiftClear s = .next (respond .configNotByteAligned s.cfg.bitLength s) := by
  simp [exec, execShiftClear, requireEngine, byteAligned, raise, hc, h]

theorem exec_runs {s : State} {i : Instr} (hc : s.constructed = true) (hp : Precondition i s) :
    exec i s = endWrites (successData i s) (runWrites (commandWrites i s) s) := by
  cases i with
  | shiftClear =>
    simp [exec, execShiftClear, requireEngine, byteAligned, issue, successData, commandWrites, hc, hp rfl]
  | _ =>
    simp [exec, execShiftBit, execShiftByte, execLatch, execEnableOutput, execGetBitLength,
      requireEngine, issue, endWrites, successData, commandWrites, hc]

/-- Every command ends, in one of three ways (60_exceptions R158). -/
theorem exec_cases (i : Instr) (s : State) :
    (s.constructed = false ∧ exec i s = .next (respond .notConstructed 0#32 s)) ∨
    (s.constructed = true ∧ ¬ Precondition i s ∧ i = .shiftClear ∧
      exec i s = .next (respond .configNotByteAligned s.cfg.bitLength s)) ∨
    (s.constructed = true ∧ Precondition i s ∧
      exec i s = endWrites (successData i s) (runWrites (commandWrites i s) s)) := by
  cases hc : s.constructed with
  | false => exact .inl ⟨rfl, exec_not_constructed hc i⟩
  | true =>
    by_cases hp : Precondition i s
    · exact .inr (.inr ⟨rfl, hp, exec_runs hc hp⟩)
    · refine .inr (.inl ⟨rfl, hp, ?_⟩)
      simp only [Precondition, Classical.not_imp] at hp
      obtain ⟨rfl, h⟩ := hp
      exact ⟨rfl, exec_clear_misaligned hc h⟩

/-- How a command that issued writes ends. -/
theorem endWrites_cases (data : Data) (r : State × Option Event) :
    (r.2 = none ∧ endWrites data r = .next (respond .ok data r.1)) ∨
    ∃ e, r.2 = some e ∧ endWrites data r = .next (respond .lineWriteFailed (failureData e) r.1) := by
  cases h : r.2 with
  | none => exact .inl ⟨rfl, by simp [endWrites, h]⟩
  | some e => exact .inr ⟨e, rfl, by simp [endWrites, h, raise]⟩

/-- Whatever a command does is its writes, as far as they go, and one response. -/
theorem exec_shape (i : Instr) (s : State) :
    ∃ ws status data, (ws = [] ∨ (ws = commandWrites i s ∧ s.constructed = true)) ∧
      exec i s = .next (respond status data (runWrites ws s).1) := by
  rcases exec_cases i s with ⟨-, h⟩ | ⟨-, -, -, h⟩ | ⟨hc, -, h⟩
  · exact ⟨[], _, _, .inl rfl, h⟩
  · exact ⟨[], _, _, .inl rfl, h⟩
  · rcases endWrites_cases (successData i s) (runWrites (commandWrites i s) s) with ⟨-, h'⟩ | ⟨e, -, h'⟩
    · exact ⟨_, _, _, .inr ⟨rfl, hc⟩, h.trans h'⟩
    · exact ⟨_, _, _, .inr ⟨rfl, hc⟩, h.trans h'⟩

/-- A command whose checks pass and whose writes do not fail. -/
theorem exec_succeeds {s : State} {i : Instr} (hc : s.constructed = true) (hp : Precondition i s)
    (hw : WritesSucceed (commandWrites i s).length s) :
    exec i s = .next (respond .ok (successData i s) (writeAll (commandWrites i s) s)) := by
  rw [exec_runs hc hp, runWrites_succeeds hw]
  rfl

end Sys2Proof.Machine
end

