-- ==== Sys2Proof/Laws/Decode.lean ====
section
/-! SUPPORT. The fields of a command word, and what masks, the illegal words and the decoder say of them. -/

namespace Sys2Proof

/-- A word built from its four fields (30_encoding R70). -/
def fieldsWord (op : BitVec 4) (rsv : BitVec 3) (flag : Bool) (imm : Byte) : CmdWord :=
  op ++ rsv ++ BitVec.ofBool flag ++ imm

theorem fieldsWord_getLsbD (op : BitVec 4) (rsv : BitVec 3) (flag : Bool) (imm : Byte) (i : Nat) :
    (fieldsWord op rsv flag imm).getLsbD i =
      if i < 8 then imm.getLsbD i else if i = 8 then flag
      else if i < 12 then rsv.getLsbD (i - 9) else op.getLsbD (i - 12) := by
  simp only [fieldsWord, BitVec.getLsbD_append, BitVec.getLsbD_ofBool]
  by_cases h8 : i < 8
  · simp [h8]
  · by_cases h9 : i = 8
    · simp [h9]
    · by_cases h12 : i < 12
      · have h1 : ¬ (i - 8 < 1) := by omega
        have h3 : i - 8 - 1 = i - 9 := by omega
        simp [h8, h9, h12, h1, h3]
        omega
      · have h1 : ¬ (i - 8 < 1) := by omega
        have h2 : ¬ (i - 8 - 1 < 3) := by omega
        have h3 : i - 8 - 1 - 3 = i - 12 := by omega
        simp [h8, h9, h12, h1, h2, h3]

@[simp] theorem opField_fieldsWord (op : BitVec 4) (rsv : BitVec 3) (flag : Bool) (imm : Byte) :
    opField (fieldsWord op rsv flag imm) = op := by
  apply BitVec.eq_of_getLsbD_eq
  intro i hi
  have h1 : ¬ (12 + i < 8) := by omega
  have h2 : ¬ (12 + i = 8) := by omega
  simp [opField, fieldsWord_getLsbD, h1, h2, hi]

@[simp] theorem rsvField_fieldsWord (op : BitVec 4) (rsv : BitVec 3) (flag : Bool) (imm : Byte) :
    rsvField (fieldsWord op rsv flag imm) = rsv := by
  apply BitVec.eq_of_getLsbD_eq
  intro i hi
  have h1 : ¬ (9 + i < 8) := by omega
  have h2 : ¬ (9 + i = 8) := by omega
  have h3 : 9 + i < 12 := by omega
  simp [rsvField, fieldsWord_getLsbD, h1, h2, h3, hi]

@[simp] theorem flagField_fieldsWord (op : BitVec 4) (rsv : BitVec 3) (flag : Bool) (imm : Byte) :
    flagField (fieldsWord op rsv flag imm) = flag := by
  rw [flagField, fieldsWord_getLsbD]
  rfl

@[simp] theorem immField_fieldsWord (op : BitVec 4) (rsv : BitVec 3) (flag : Bool) (imm : Byte) :
    immField (fieldsWord op rsv flag imm) = imm := by
  apply BitVec.eq_of_getLsbD_eq
  intro i hi
  simp [immField, fieldsWord_getLsbD, hi]

/-- Every word is built from its fields. -/
theorem fieldsWord_of_fields (w : CmdWord) :
    fieldsWord (opField w) (rsvField w) (flagField w) (immField w) = w := by
  apply BitVec.eq_of_getLsbD_eq
  intro i hi
  rw [fieldsWord_getLsbD]
  by_cases h8 : i < 8
  · simp [h8, immField]
  · by_cases h9 : i = 8
    · simp [h9, flagField]
    · by_cases h12 : i < 12
      · have h2 : i - 9 < 3 := by omega
        have h3 : 9 + (i - 9) = i := by omega
        simp [h8, h9, h12, rsvField, h2, h3]
      · have h2 : i - 12 < 4 := by omega
        have h3 : 12 + (i - 12) = i := by omega
        simp [h8, h9, h12, opField, h2, h3]

/-- Words are equal when their fields are. -/
theorem fieldsWord_inj {op op' : BitVec 4} {rsv rsv' : BitVec 3} {flag flag' : Bool} {imm imm' : Byte} :
    fieldsWord op rsv flag imm = fieldsWord op' rsv' flag' imm' ↔
      op = op' ∧ rsv = rsv' ∧ flag = flag' ∧ imm = imm' := by
  constructor
  · intro h
    exact ⟨by simpa using congrArg opField h, by simpa using congrArg rsvField h,
      by simpa using congrArg flagField h, by simpa using congrArg immField h⟩
  · rintro ⟨rfl, rfl, rfl, rfl⟩
    rfl

/-- Masking acts field by field. -/
theorem fieldsWord_and (op op' : BitVec 4) (rsv rsv' : BitVec 3) (flag flag' : Bool) (imm imm' : Byte) :
    fieldsWord op rsv flag imm &&& fieldsWord op' rsv' flag' imm' =
      fieldsWord (op &&& op') (rsv &&& rsv') (flag && flag') (imm &&& imm') := by
  apply BitVec.eq_of_getLsbD_eq
  intro i hi
  simp only [BitVec.getLsbD_and, fieldsWord_getLsbD]
  split
  · rfl
  · split
    · rfl
    · split <;> rfl

/-- The value of a word from its fields. -/
theorem fieldsWord_toNat (op : BitVec 4) (rsv : BitVec 3) (flag : Bool) (imm : Byte) :
    (fieldsWord op rsv flag imm).toNat = 4096 * op.toNat + 512 * rsv.toNat + 256 * flag.toNat + imm.toNat := by
  have hi : imm.toNat < 2 ^ 8 := imm.isLt
  have hf : (BitVec.ofBool flag).toNat < 2 ^ 1 := (BitVec.ofBool flag).isLt
  have hr : rsv.toNat < 2 ^ 3 := rsv.isLt
  simp only [fieldsWord, BitVec.toNat_append]
  rw [← Nat.shiftLeft_add_eq_or_of_lt hr, ← Nat.shiftLeft_add_eq_or_of_lt hf, ← Nat.shiftLeft_add_eq_or_of_lt hi]
  simp only [Nat.shiftLeft_eq, BitVec.toNat_ofBool]
  omega

theorem commandWord_eq (op : BitVec 4) (flag : Bool) (imm : Byte) :
    commandWord op flag imm = fieldsWord op 0#3 flag imm := rfl

/-- The decoder on the fields of a word (30_encoding R72, R74). -/
theorem decode_fieldsWord (op : BitVec 4) (rsv : BitVec 3) (flag : Bool) (imm : Byte) :
    decode (fieldsWord op rsv flag imm) =
      if rsv = 0#3 then
        match op.toNat with
        | 1 => if imm = 0#8 then .instr (.shiftBit flag) else .illegal .fieldNotZero
        | 2 => .instr (.shiftByte flag imm)
        | 3 => if flag = false ∧ imm = 0#8 then .instr .shiftClear else .illegal .fieldNotZero
        | 4 => if flag = false ∧ imm = 0#8 then .instr .latch else .illegal .fieldNotZero
        | 5 => if imm = 0#8 then .instr (.enableOutput flag) else .illegal .fieldNotZero
        | 6 => if flag = false ∧ imm = 0#8 then .instr .getBitLength else .illegal .fieldNotZero
        | _ => .illegal .unassignedOpcode
      else .illegal .reservedNotZero := by
  simp only [decode, rsvField_fieldsWord, decodeOp, opField_fieldsWord, decodeF, decodeN, flagField_fieldsWord,
    immField_fieldsWord] <;> rfl

end Sys2Proof
end

