-- ==== Sys2Proof/Laws/Steps.lean ====
section
/-! SUPPORT. What a construction, a scheduler tick and a step can do, said once. -/

namespace Sys2Proof.Machine

/-! ## Construction (70_reset_and_hazards R200) -/

theorem lengthInRange_iff (max n : Data) :
    lengthInRange max n = true ↔ 1 ≤ n.toNat ∧ n.toNat ≤ max.toNat := by
  simp [lengthInRange, Nat.one_le_iff_ne_zero]

theorem missingMask_eq_zero (present : BitVec 4) :
    missingMask present = 0#3 ↔
      present.getLsbD 0 = true ∧ present.getLsbD 1 = true ∧ present.getLsbD 2 = true := by
  revert present
  decide

/-- A construction is refused, or reports its missing lines and changes nothing, or sets up the engine and writes. -/
theorem construct_cases (r : ConstructRecord) (s : State) :
    ((r.bitLength.toNat = 0 ∨ s.par.bitLengthMax.toNat < r.bitLength.toNat) ∧
      construct r s = .refused .bitLengthOutOfRange) ∨
    (1 ≤ r.bitLength.toNat ∧ r.bitLength.toNat ≤ s.par.bitLengthMax.toNat ∧ missingMask r.present ≠ 0#3 ∧
      construct r s = .next (respond .configMissingLine ((missingMask r.present).setWidth 32) s)) ∨
    (1 ≤ r.bitLength.toNat ∧ r.bitLength.toNat ≤ s.par.bitLengthMax.toNat ∧ missingMask r.present = 0#3 ∧
      construct r s = endWrites 0#32 (runWrites (constructWrites (r.present.getLsbD 3)) (newEngine r s))) := by
  by_cases hr : lengthInRange s.par.bitLengthMax r.bitLength = true
  · have hb := (lengthInRange_iff _ _).1 hr
    by_cases hm : missingMask r.present = 0#3
    · exact .inr (.inr ⟨hb.1, hb.2, hm, by simp [construct, hr, hm, issue]⟩)
    · exact .inr (.inl ⟨hb.1, hb.2, hm, by simp [construct, hr, hm, raise]⟩)
  · refine .inl ⟨?_, by simp [construct, hr]⟩
    rw [lengthInRange_iff] at hr
    omega

/-- The writes of a construction that passes validation leave the mandatory lines at rest and OE, when present, at true. -/
theorem constructWrites_levels (b : Bool) (v : Option Bool) :
    (constructWrites b).foldl (fun v e => if e.line = .ser then some e.value else v) v = some false ∧
    (constructWrites b).foldl (fun v e => if e.line = .clk then some e.value else v) v = some false ∧
    (constructWrites b).foldl (fun v e => if e.line = .lat then some e.value else v) v = some false ∧
    (constructWrites b).foldl (fun v e => if e.line = .oe then some e.value else v) v = (if b then some true else v) := by
  cases b <;> simp [constructWrites]

/-! ## Landing queued writes (40_output_line R93) -/

section

variable (qs : List QueuedWrite) (s : State)

/-- What landing one write keeps, landing several keeps. -/
theorem landAll_keeps {P : State → Prop} (hstep : ∀ s q, P s → P (landWrite s q)) {s : State} (h : P s) :
    P (qs.foldl landWrite s) := by
  induction qs generalizing s with
  | nil => exact h
  | cons q qs ih => exact ih (hstep s q h)

@[simp] theorem landAll_lvl (l : Line) : ((qs.foldl landWrite s).line.get l).lvl = (s.line.get l).lvl :=
  landAll_keeps qs (P := fun t => (t.line.get l).lvl = (s.line.get l).lvl) (by simp) rfl
@[simp] theorem landAll_activeHigh (l : Line) :
    ((qs.foldl landWrite s).line.get l).activeHigh = (s.line.get l).activeHigh :=
  landAll_keeps qs (P := fun t => (t.line.get l).activeHigh = (s.line.get l).activeHigh) (by simp) rfl
@[simp] theorem landAll_pinId (l : Line) : ((qs.foldl landWrite s).line.get l).pinId = (s.line.get l).pinId :=
  landAll_keeps qs (P := fun t => (t.line.get l).pinId = (s.line.get l).pinId) (by simp) rfl

@[simp] theorem landAll_variant (l : Line) : ((qs.foldl landWrite s).line.get l).variant = (s.line.get l).variant :=
  landAll_keeps qs (P := fun t => (t.line.get l).variant = (s.line.get l).variant) (by simp) rfl

/-- Each pin ends at the last of the landed writes that name its line. -/
theorem landAll_pin (l : Line) : ((qs.foldl landWrite s).line.get l).pin =
    qs.foldl (fun v q => if q.line = l then some (physLevel (s.line.get l).activeHigh q.level) else v)
      (s.line.get l).pin := by
  induction qs generalizing s with
  | nil => rfl
  | cons q qs ih =>
    rw [List.foldl_cons, ih, List.foldl_cons, landWrite_pin, landWrite_activeHigh]
    simp only [eq_comm]

/-- Landing writes changes nothing but the lines. -/
theorem landAll_eq : qs.foldl landWrite s = { s with line := (qs.foldl landWrite s).line } := by
  induction qs generalizing s with
  | nil => rfl
  | cons q qs ih =>
    rw [List.foldl_cons, ih]
    rfl

end

/-- A scheduler tick changes nothing but the pins, the queue and the ticks to come. -/
theorem schedulerTick_eq (s : State) :
    schedulerTick s = { s with
      line := (schedulerTick s).line, queue := (schedulerTick s).queue, ticks := (schedulerTick s).ticks } := by
  unfold schedulerTick
  split
  · simp only [landQueued]
    rw [landAll_eq]
  · rfl

section

variable (s : State)

@[simp] theorem schedulerTick_par : (schedulerTick s).par = s.par := by rw [schedulerTick_eq]
@[simp] theorem schedulerTick_constructed : (schedulerTick s).constructed = s.constructed := by rw [schedulerTick_eq]
@[simp] theorem schedulerTick_cfg : (schedulerTick s).cfg = s.cfg := by rw [schedulerTick_eq]
@[simp] theorem schedulerTick_trace : (schedulerTick s).trace = s.trace := by rw [schedulerTick_eq]
@[simp] theorem schedulerTick_dev : (schedulerTick s).dev = s.dev := by rw [schedulerTick_eq]
@[simp] theorem schedulerTick_pending : (schedulerTick s).pending = s.pending := by rw [schedulerTick_eq]
@[simp] theorem schedulerTick_hpc : (schedulerTick s).hpc = s.hpc := by rw [schedulerTick_eq]
@[simp] theorem schedulerTick_responses : (schedulerTick s).responses = s.responses := by rw [schedulerTick_eq]
@[simp] theorem schedulerTick_lineReports : (schedulerTick s).lineReports = s.lineReports := by rw [schedulerTick_eq]
@[simp] theorem schedulerTick_draws : (schedulerTick s).draws = s.draws := by rw [schedulerTick_eq]

@[simp] theorem schedulerTick_lvl (l : Line) : ((schedulerTick s).line.get l).lvl = (s.line.get l).lvl := by
  unfold schedulerTick
  split <;> simp [landQueued]

@[simp] theorem schedulerTick_activeHigh (l : Line) :
    ((schedulerTick s).line.get l).activeHigh = (s.line.get l).activeHigh := by
  unfold schedulerTick
  split <;> simp [landQueued]

@[simp] theorem schedulerTick_pinId (l : Line) : ((schedulerTick s).line.get l).pinId = (s.line.get l).pinId := by
  unfold schedulerTick
  split <;> simp [landQueued]

@[simp] theorem schedulerTick_variant (l : Line) :
    ((schedulerTick s).line.get l).variant = (s.line.get l).variant := by
  unfold schedulerTick
  split <;> simp [landQueued]

@[simp] theorem level_schedulerTick (l : Line) : level (schedulerTick s) l = level s l := by simp [level]

end

/-! ## One step (00_scope R9) -/

/-- A step ends the run, or carries out a command, an illegal word, or a construction. -/
theorem step_cases (s : State) :
    (s.pending = [] ∧ step s = .fault .endOfRun) ∨
    (∃ w rest i, s.pending = .command w :: rest ∧ decode w = .instr i ∧
      step s = thenNext endCommand (exec i { s with pending := rest })) ∨
    (∃ w rest why, s.pending = .command w :: rest ∧ decode w = .illegal why ∧
      step s = .next (endCommand (respond .illegalCommand (w.setWidth 32) { s with pending := rest }))) ∨
    (∃ r rest, s.pending = .construct r :: rest ∧
      step s = thenNext schedulerTick (construct r { s with pending := rest })) := by
  cases hp : s.pending with
  | nil => exact .inl ⟨rfl, by simp [step, hp, noMove]⟩
  | cons m rest =>
    have ht : takeMove s = { s with pending := rest } := by simp [takeMove, hp]
    cases m with
    | construct r => exact .inr (.inr (.inr ⟨r, rest, rfl, by simp [step, hp, ht, constructMove]⟩))
    | command w =>
      cases hd : decode w with
      | instr i => exact .inr (.inl ⟨w, rest, i, rfl, hd, by simp [step, hp, ht, commandMove, runWord, hd]⟩)
      | illegal why =>
        exact .inr (.inr (.inl ⟨w, rest, why, rfl, hd, by
          simp [step, hp, ht, commandMove, runWord, hd, raiseIllegal, raise, thenNext]⟩))

/-- A next state of a construction: an error that changes nothing, or the new engine after its writes. -/
theorem construct_next {r : ConstructRecord} {s t : State} (h : construct r s = .next t) :
    t = respond .configMissingLine ((missingMask r.present).setWidth 32) s ∧ missingMask r.present ≠ 0#3 ∨
    ∃ st d, t = respond st d (runWrites (constructWrites (r.present.getLsbD 3)) (newEngine r s)).1 ∧
      missingMask r.present = 0#3 ∧ 1 ≤ r.bitLength.toNat ∧ r.bitLength.toNat ≤ s.par.bitLengthMax.toNat ∧
      (st = .ok ∧ d = 0#32 ∧ (runWrites (constructWrites (r.present.getLsbD 3)) (newEngine r s)).2 = none ∨
       st = .lineWriteFailed) := by
  rcases construct_cases r s with ⟨-, h'⟩ | ⟨-, -, hm, h'⟩ | ⟨h1, h2, hm, h'⟩
  · simp [h'] at h
  · rw [h'] at h
    exact .inl ⟨(by simpa using h.symm), hm⟩
  · rw [h'] at h
    rcases endWrites_cases 0#32 (runWrites (constructWrites (r.present.getLsbD 3)) (newEngine r s)) with
      ⟨hn, he⟩ | ⟨e, -, he⟩ <;> rw [he] at h
    · exact .inr ⟨.ok, 0#32, by simpa using h.symm, hm, h1, h2, .inl ⟨rfl, rfl, hn⟩⟩
    · exact .inr ⟨.lineWriteFailed, _, by simpa using h.symm, hm, h1, h2, .inr rfl⟩

/-- No step changes the parameters, nor what belongs to a line for its life (10_state R26). -/
theorem step_keeps_wiring {s t : State} (h : step s = .next t) :
    t.par = s.par ∧ ∀ l, (t.line.get l).pinId = (s.line.get l).pinId ∧
      (t.line.get l).activeHigh = (s.line.get l).activeHigh ∧ (t.line.get l).variant = (s.line.get l).variant := by
  rcases step_cases s with ⟨-, hs⟩ | ⟨w, rest, i, -, -, hs⟩ | ⟨w, rest, why, -, -, hs⟩ | ⟨r, rest, -, hs⟩ <;> rw [hs] at h
  · cases h
  · obtain ⟨ws, st, d, -, he⟩ := exec_shape i { s with pending := rest }
    rw [he] at h
    cases h
    simp [endCommand]
  · cases h
    simp [endCommand]
  · cases hc : construct r { s with pending := rest } with
    | next u =>
      rw [hc] at h
      cases h
      rcases construct_next hc with ⟨rfl, -⟩ | ⟨st, d, rfl, -⟩ <;> simp
    | fault f =>
      rw [hc] at h
      cases h
    | refused f =>
      rw [hc] at h
      cases h

end Sys2Proof.Machine
end

