-- ==== Sys2Proof/Laws/Writes.lean ====
section
/-! SUPPORT. The write lists of the commands: their lengths, the lines they name, the levels they leave, and what a command
or a failed write does with them. -/

namespace Sys2Proof.Machine

/-! ## What writes that do not fail keep and append -/

section

variable (ws : List Event) (s : State)

@[simp] theorem writeAll_trace : (writeAll ws s).trace = s.trace ++ ws := by
  induction ws generalizing s with
  | nil => simp
  | cons e es ih => simp [ih]

@[simp] theorem writeAll_responses : (writeAll ws s).responses = s.responses := by
  induction ws generalizing s with
  | nil => rfl
  | cons e es ih => simp [ih]

@[simp] theorem writeAll_constructed : (writeAll ws s).constructed = s.constructed := by
  induction ws generalizing s with
  | nil => rfl
  | cons e es ih => simp [ih]

@[simp] theorem writeAll_pending : (writeAll ws s).pending = s.pending := by
  induction ws generalizing s with
  | nil => rfl
  | cons e es ih => simp [ih]

@[simp] theorem writeAll_hpc : (writeAll ws s).hpc = s.hpc := by
  induction ws generalizing s with
  | nil => rfl
  | cons e es ih => simp [ih]

@[simp] theorem writeAll_draws : (writeAll ws s).draws = s.draws + ws.length := by
  induction ws generalizing s with
  | nil => rfl
  | cons e es ih =>
    simp [ih]
    omega

end

theorem writeAll_line_other {ws : List Event} {s : State} (hw : WritesSucceed ws.length s) {l : Line}
    (h : ∀ e ∈ ws, l ≠ e.line) : (writeAll ws s).line.get l = s.line.get l := by
  have := runWrites_line_other h s
  rwa [runWrites_succeeds hw] at this

/-! ## Lengths (70_reset_and_hazards R214) -/

theorem bitWrites_flatMap_length (bits : List Bool) : (bits.flatMap bitWrites).length = 4 * bits.length := by
  induction bits with
  | nil => rfl
  | cons b bs ih =>
    simp [bitWrites]
    omega

theorem byteBits_length (value : Byte) : (byteBits value).length = 8 := by simp [byteBits]

theorem byteWrites_length (latch : Bool) (value : Byte) :
    (byteWrites latch value).length = if latch then 34 else 32 := by
  cases latch <;> rfl

theorem clearWrites_length (n : Nat) : (clearWrites n).length = 34 * (n / 8) := by
  simp [clearWrites, byteWrites_length]
  omega

theorem commandWrites_length (i : Instr) (s : State) : (commandWrites i s).length = successWrites i s := by
  cases i <;> simp only [commandWrites, successWrites, byteWrites_length, clearWrites_length] <;> try rfl
  simp [enableWrites]
  split <;> rfl

/-! ## The lines a write list names -/

theorem bitWrites_mem {e : Event} {b : Bool} (h : e ∈ bitWrites b) : e.line ≠ .oe ∧ e.line ≠ .lat := by
  simp only [bitWrites, List.mem_cons, List.not_mem_nil, or_false] at h
  rcases h with rfl | rfl | rfl | rfl <;> simp

theorem byteWrites_mem {e : Event} {latch : Bool} {value : Byte} (h : e ∈ byteWrites latch value) :
    e.line ≠ .oe ∧ (latch = false → e.line ≠ .lat) := by
  rw [byteWrites, List.mem_append, List.mem_flatMap] at h
  rcases h with ⟨b, -, h⟩ | h
  · exact ⟨(bitWrites_mem h).1, fun _ => (bitWrites_mem h).2⟩
  · cases latch with
    | false => simp at h
    | true =>
      simp only [pulseLat, if_true, List.mem_cons, List.not_mem_nil, or_false] at h
      rcases h with rfl | rfl <;> simp

theorem clearWrites_mem {e : Event} {n : Nat} (h : e ∈ clearWrites n) : e.line ≠ .oe := by
  simp only [clearWrites, List.mem_flatten, List.mem_replicate] at h
  obtain ⟨ws, ⟨-, rfl⟩, h⟩ := h
  exact (byteWrites_mem h).1

/-! ## The levels a write list leaves -/

/-- The level of a line after a list of writes that do not fail, from the level before it. -/
def lastLevel (l : Line) (ws : List Event) (v : Option Bool) : Option Bool :=
  ws.foldl (fun v e => if e.line = l then some e.value else v) v

theorem level_writeAll_last {ws : List Event} {s : State} (h : WritesSucceed ws.length s) (l : Line) :
    level (writeAll ws s) l = lastLevel l ws (level s l) := level_writeAll h l

theorem lastLevel_append (l : Line) (us ws : List Event) (v : Option Bool) :
    lastLevel l (us ++ ws) v = lastLevel l ws (lastLevel l us v) := by simp [lastLevel, List.foldl_append]

theorem lastLevel_bits (bits : List Bool) (v : Option Bool) :
    lastLevel .ser (bits.flatMap bitWrites) v = (if bits = [] then v else some false) ∧
    lastLevel .clk (bits.flatMap bitWrites) v = (if bits = [] then v else some false) ∧
    lastLevel .lat (bits.flatMap bitWrites) v = v := by
  induction bits generalizing v with
  | nil => simp [lastLevel]
  | cons b bs ih =>
    simp only [List.flatMap_cons, lastLevel_append, (ih _).1, (ih _).2.1, (ih _).2.2]
    refine ⟨?_, ?_, ?_⟩
    · by_cases h : bs = [] <;> simp [h, lastLevel, bitWrites]
    · by_cases h : bs = [] <;> simp [h, lastLevel, bitWrites]
    · simp [lastLevel, bitWrites]

theorem lastLevel_byte (latch : Bool) (value : Byte) (v : Option Bool) :
    lastLevel .ser (byteWrites latch value) v = some false ∧
    lastLevel .clk (byteWrites latch value) v = some false ∧
    lastLevel .lat (byteWrites latch value) v = (if latch then some false else v) := by
  have h : byteBits value ≠ [] := by simp [byteBits]
  simp only [byteWrites, lastLevel_append, (lastLevel_bits _ _).1, (lastLevel_bits _ _).2.1,
    (lastLevel_bits _ _).2.2, h, if_false]
  cases latch <;> simp [lastLevel, pulseLat]

theorem lastLevel_clear (n : Nat) (l : Line) (h : l ≠ .oe) (v : Option Bool) :
    lastLevel l (clearWrites n) v = if n / 8 = 0 then v else some false := by
  unfold clearWrites
  generalize n / 8 = k
  induction k generalizing v with
  | zero => simp [lastLevel]
  | succ k ih =>
    have hb : lastLevel l (byteWrites true 0#8) v = some false := by
      have := lastLevel_byte true 0#8 v
      cases l <;> simp_all
    simp only [List.replicate_succ, List.flatten_cons, lastLevel_append, ih, hb]
    cases k <;> simp

/-- From rest, the writes of every command end at rest (10_state R36). -/
theorem lastLevel_command (i : Instr) (s : State) (l : Line) (h : l ≠ .oe) :
    lastLevel l (commandWrites i s) (some false) = some false := by
  cases i with
  | shiftBit v => cases l <;> simp [commandWrites, lastLevel, bitWrites] at h ⊢
  | shiftByte b v =>
    have := lastLevel_byte b v (some false)
    cases l <;> simp_all [commandWrites]
  | shiftClear => simp [commandWrites, lastLevel_clear _ l h]
  | latch => cases l <;> simp [commandWrites, lastLevel, pulseLat] at h ⊢
  | enableOutput v =>
    cases l <;> cases hp : s.cfg.present.oe <;> simp [commandWrites, lastLevel, enableWrites, hp] at h ⊢
  | getBitLength => rfl

theorem atRest_bits {bits : List Bool} {s : State} (hw : WritesSucceed (4 * bits.length) s)
    (h : level s .clk = some false) : level (writeAll (bits.flatMap bitWrites) s) .clk = some false := by
  rw [level_writeAll_last (by rw [bitWrites_flatMap_length]; exact hw), (lastLevel_bits bits _).2.1, h]
  simp

theorem atRest_byte {latch : Bool} {value : Byte} {s : State} (hr : AtRest s) (hw : WritesSucceed 34 s) :
    AtRest (writeAll (byteWrites latch value) s) := by
  have hl := level_writeAll_last (ws := byteWrites latch value) (s := s)
    (writesSucceed_mono (by rw [byteWrites_length]; split <;> omega) hw)
  have h := fun v => lastLevel_byte latch value v
  refine ⟨by rw [hl, (h _).1], by rw [hl, (h _).2.1], ?_⟩
  rw [hl, (h _).2.2, hr.2.2]
  simp

/-! ## How a command ends -/

/-- A command whose checks pass answers `OK` or reports a write it issued, and leaves alone every line it does not name. -/
theorem exec_answers {i : Instr} {s : State} (hc : s.constructed = true) (hp : Precondition i s) :
    ∃ t r, exec i s = .next t ∧ t.responses = s.responses ++ [r] ∧
      (r = ⟨.ok, successData i s⟩ ∨ (r.status = .lineWriteFailed ∧ commandWrites i s ≠ [])) ∧
      (∀ l, (∀ e ∈ commandWrites i s, l ≠ e.line) → t.line.get l = s.line.get l) := by
  rcases endWrites_cases (successData i s) (runWrites (commandWrites i s) s) with ⟨-, he⟩ | ⟨e, hn, he⟩
  · exact ⟨_, _, (exec_runs hc hp).trans he, (by simp), .inl rfl, fun l h => runWrites_line_other h s⟩
  · refine ⟨_, _, (exec_runs hc hp).trans he, (by simp; rfl), .inr ⟨rfl, ?_⟩, fun l h => runWrites_line_other h s⟩
    intro h
    simp [h] at hn

/-- What every command leaves unchanged. -/
theorem exec_frame {i : Instr} {s t : State} (h : exec i s = .next t) :
    (t.par = s.par ∧ t.constructed = s.constructed ∧ t.cfg = s.cfg ∧ t.pending = s.pending ∧ t.hpc = s.hpc ∧
      t.ticks = s.ticks) ∧
    (∀ l, (∀ e ∈ commandWrites i s, l ≠ e.line) → t.line.get l = s.line.get l) ∧
    (∀ l, (t.line.get l).pinId = (s.line.get l).pinId ∧ (t.line.get l).activeHigh = (s.line.get l).activeHigh ∧
      (t.line.get l).variant = (s.line.get l).variant) ∧
    (s.par.ioDeferred = false → t.queue = s.queue) ∧
    (s.par.ioDeferred = true → ∀ l, (t.line.get l).pin = (s.line.get l).pin) ∧
    (∃ es, es <+: commandWrites i s ∧ t.trace = s.trace ++ es) ∧ (∃ r, t.responses = s.responses ++ [r]) ∧
    (commandWrites i s = [] → t.dev = s.dev) := by
  obtain ⟨ws, st, d, hws, he⟩ := exec_shape i s
  rw [he] at h
  cases h
  obtain ⟨es, hpre, htr⟩ := runWrites_trace_prefix ws s
  have hsub : ∀ e ∈ ws, e ∈ commandWrites i s := by
    rcases hws with rfl | ⟨rfl, -⟩ <;> simp
  refine ⟨by simp, fun l hl => ?_, fun l => by simp, fun hd => ?_, fun hd l => ?_, ⟨es, ?_, by simp [htr]⟩,
    ⟨⟨st, d⟩, by simp⟩, fun hn => ?_⟩
  · exact runWrites_line_other (fun e he' => hl e (hsub e he')) s
  · exact runWrites_queue_direct hd ws
  · exact runWrites_pin_deferred hd ws l
  · rcases hws with rfl | ⟨rfl, -⟩
    · simp at hpre
      simp [hpre]
    · exact hpre
  · rcases hws with rfl | ⟨rfl, -⟩
    · rfl
    · simp [hn]

/-! ## A write that fails (60_exceptions R155) -/

theorem firstFailure_before {s : State} {j : Nat} (h : FirstFailureAt j s) : WritesSucceed j s := .inr h.2.1

theorem firstFailure_writeFails {ws : List Event} {s : State} (h : FirstFailureAt ws.length s) :
    writeFails (writeAll ws s) = true := by
  induction ws generalizing s with
  | nil =>
    obtain ⟨hc, -, hbad⟩ := h
    cases hr : s.lineReports with
    | nil => simp [hr] at hbad
    | cons b bs => simp_all [writeFails]
  | cons e es ih =>
    obtain ⟨hc, hok, hbad⟩ := h
    cases hr : s.lineReports with
    | nil => simp [hr] at hbad
    | cons b bs =>
      rw [writeAll_cons]
      refine ih (s := lineWrite e s) ⟨by simpa using hc, fun c hc' => hok c ?_, ?_⟩
      · simp only [lineWrite_lineReports, hc, hr, List.tail_cons, if_true] at hc'
        simp [hr, hc']
      · simpa [hc, hr] using hbad

/-- What a list of writes answers when one of them fails. -/
theorem endWrites_failed {ws : List Event} {s : State} {j : Nat} {e : Event} (hj : FirstFailureAt j s)
    (he : ws[j]? = some e) (data : Data) :
    ∃ t, endWrites data (runWrites ws s) = .next t ∧
      t.trace = s.trace ++ ws.take (j + 1) ∧
      t.responses = s.responses ++ [⟨.lineWriteFailed, (eventCode e).setWidth 32⟩] ∧
      level t e.line = some (Config.freeLevel (s.draws + j)) ∧
      (∀ l, l ≠ e.line → level t l = lastLevel l (ws.take j) (level s l)) ∧
      t.dev = freeDevice (s.draws + j) s.par.devLen (some 0) ∧ t.constructed = s.constructed ∧ t.cfg = s.cfg := by
  obtain ⟨hlt, he'⟩ := List.getElem?_eq_some_iff.1 he
  have hr := runWrites_fails hj hlt
  rw [he'] at hr
  rw [hr]
  have hlen : (ws.take j).length = j := by
    simp
    omega
  have hf := firstFailure_writeFails (ws := ws.take j) (s := s) (by rw [hlen]; exact hj)
  have hl := level_writeAll_last (ws := ws.take j) (s := s) (by rw [hlen]; exact firstFailure_before hj)
  refine ⟨_, rfl, ?_, ?_, ?_, ?_, ?_, ?_, ?_⟩
  · rw [List.take_add_one, he]
    simp
  · simp [failureData]
  · rw [level_respond, level_lineWrite]
    simp [writtenLevel, hf, hlen]
  · intro l hne
    rw [level_respond, level_lineWrite, if_neg hne, hl]
  · simp only [respond_dev, lineWrite_dev, hf, if_true, observeFailure, anyDevice, anyStage, anyOut, anyOutputs,
      freeDevice, writeLine_par, writeLine_draws, writeAll_par, writeAll_draws, hlen]
  · simp
  · simp

/-- The writes, the failure and the reports left of a list depend only on what the lines report (20_memory R59). -/
theorem runWrites_agree (ws : List Event) {s u : State} (h1 : s.par.lineWriteCanFail = u.par.lineWriteCanFail)
    (h2 : s.lineReports = u.lineReports) :
    (runWrites ws s).2 = (runWrites ws u).2 ∧ (runWrites ws s).1.lineReports = (runWrites ws u).1.lineReports ∧
      ∃ es, (runWrites ws s).1.trace = s.trace ++ es ∧ (runWrites ws u).1.trace = u.trace ++ es := by
  induction ws generalizing s u with
  | nil => exact ⟨rfl, h2, [], by simp⟩
  | cons e es ih =>
    have hf : writeFails s = writeFails u := by simp [writeFails, h1, h2]
    have hr : (lineWrite e s).lineReports = (lineWrite e u).lineReports := by simp [h1, h2]
    simp only [runWrites, hf]
    cases writeFails u with
    | true => exact ⟨rfl, hr, [e], by simp⟩
    | false =>
      obtain ⟨h3, h4, es', h5, h6⟩ := ih (s := lineWrite e s) (u := lineWrite e u) (by simpa using h1) hr
      exact ⟨h3, h4, e :: es', by simpa using h5, by simpa using h6⟩

end Sys2Proof.Machine
end

