-- ==== Sys2Proof/Laws/Observer.lean ====
section
/-! SUPPORT. What one write and one command's writes do to the reference observer: while it is known (60_exceptions R172 to
R176), and while a failed write is outstanding (R178). -/

namespace Sys2Proof.Machine

/-! ## When the observer applies -/

theorem observerApplies_congr {s t : State} (h : observerApplies s = true) (hp : t.par = s.par) (hc : t.cfg = s.cfg)
    (ha : ∀ l, (t.line.get l).activeHigh = (s.line.get l).activeHigh) : observerApplies t = true := by
  have h1 := ha .ser
  have h2 := ha .clk
  have h3 := ha .lat
  have h4 := ha .oe
  simp only [PerLine.get] at h1 h2 h3 h4
  simp only [observerApplies] at h ⊢
  rwa [hp, hc, h1, h2, h3, h4]

theorem observerApplies_writeLine {e : Event} {s : State} (h : observerApplies s = true) :
    observerApplies (writeLine e s) = true := observerApplies_congr h (by simp) (by simp) (by simp)

theorem observerApplies_lineWrite {e : Event} {s : State} (h : observerApplies s = true) :
    observerApplies (lineWrite e s) = true := observerApplies_congr h (by simp) (by simp) (by simp)

theorem observerApplies_writeLine_false {e : Event} {s : State} (h : observerApplies s = false) :
    observerApplies (writeLine e s) = false := by
  by_contra hn
  have := observerApplies_congr (s := writeLine e s) (t := s) (by simpa using hn) (by simp) (by simp) (by simp)
  rw [h] at this
  cases this

theorem writeLine_clk_ser (s : State) (v : Bool) : (writeLine ⟨.clk, v⟩ s).line.ser.lvl = s.line.ser.lvl := by
  have := writeLine_lvl ⟨.clk, v⟩ .ser s
  simpa [PerLine.get] using this

/-! ## The device keeps its length -/

theorem settledDevice_length {e : Event} {prev : Option Bool} {s : State} (h1 : s.dev.stage.length = s.par.devLen)
    (h2 : s.dev.out.length = s.par.devLen) :
    (settledDevice e prev s).stage.length = s.par.devLen ∧ (settledDevice e prev s).out.length = s.par.devLen ∧
      (settledDevice e prev s).outputs.length = s.par.devLen := by
  have hst : (stageAfter e prev s).length = s.par.devLen := by
    unfold stageAfter
    split
    · simp [shiftStage, h1]
    · split
      · simp [anyStage]
      · exact h1
  have hout : (outAfter e prev s).length = s.par.devLen := by
    unfold outAfter
    split
    · exact h1
    · split
      · simp [anyOut]
      · exact h2
  refine ⟨hst, hout, ?_⟩
  simp only [settledDevice, outputsFor]
  split
  · split <;> simp [hout, anyOutputs]
  · simp [hout]

theorem deviceSized_lineWrite (e : Event) {s : State} (h : DeviceSized s) : DeviceSized (lineWrite e s) := by
  obtain ⟨h1, h2, -⟩ := h
  have hset := settledDevice_length (e := e) (prev := level s e.line) (s := writeLine e s) (by simpa using h1)
    (by simpa using h2)
  simp only [writeLine_par] at hset
  simp only [DeviceSized, lineWrite_par, lineWrite_dev]
  split
  · simp [observeFailure, anyDevice, anyStage, anyOut, anyOutputs]
  · unfold observe
    split
    · split
      · exact hset
      · unfold unsettledDevice
        split
        · exact hset
        · refine ⟨?_, by simp [anyOut], by simp [anyOutputs]⟩
          have := hset.1
          simp only [settledDevice] at this
          simp [this, anyStage]
          omega
    · simp [anyDevice, anyStage, anyOut, anyOutputs]

/-! ## One write of a known device (60_exceptions R172 to R176) -/

theorem lineWrite_dev_known {e : Event} {s : State} (hk : DeviceKnown s) (hf : writeFails s = false) :
    (lineWrite e s).dev = settledDevice e (level s e.line) (writeLine e s) := by
  rw [lineWrite_dev, hf]
  simp [observe, observerApplies_writeLine hk.1, hk.2]

theorem deviceKnown_lineWrite {e : Event} {s : State} (hk : DeviceKnown s) (hf : writeFails s = false) :
    DeviceKnown (lineWrite e s) :=
  ⟨observerApplies_lineWrite hk.1, by rw [lineWrite_dev_known hk hf]; rfl⟩

/-- A write that is no rising edge leaves both stages (60_exceptions R174). -/
theorem lineWrite_dev_keep {e : Event} {s : State} (hk : DeviceKnown s) (hf : writeFails s = false)
    (h : e.value = false ∨ e.line = .ser ∨ e.line = .oe ∨ level s e.line = some true) :
    (lineWrite e s).dev.stage = s.dev.stage ∧ (lineWrite e s).dev.out = s.dev.out := by
  rw [lineWrite_dev_known hk hf]
  simp only [settledDevice, stageAfter, outAfter, clockEdge, latchEdge]
  obtain ⟨l, v⟩ := e
  rcases h with h | h | h | h <;> simp at h <;> simp [h]

theorem writeAll_dev_keep {ws : List Event} {s : State} (hk : DeviceKnown s) (hw : WritesSucceed ws.length s)
    (h : ∀ e ∈ ws, e.value = false ∨ e.line = .ser ∨ e.line = .oe) :
    (writeAll ws s).dev.stage = s.dev.stage ∧ (writeAll ws s).dev.out = s.dev.out ∧ DeviceKnown (writeAll ws s) := by
  induction ws generalizing s with
  | nil => exact ⟨rfl, rfl, hk⟩
  | cons e es ih =>
    have hf := writeFails_false (n := es.length) (by simpa using hw)
    have h1 := lineWrite_dev_keep (e := e) hk hf (by rcases h e (by simp) with h | h | h <;> simp [h])
    have h2 := ih (deviceKnown_lineWrite (e := e) hk hf) (writesSucceed_lineWrite e (by simpa using hw))
      (fun e' h' => h e' (by simp [h']))
    exact ⟨h2.1.trans h1.1, h2.2.1.trans h1.2, h2.2.2⟩

/-! ## A command's writes on a known device -/

theorem bitWrites_dev {b : Bool} {s : State} (hk : DeviceKnown s) (hl : level s .clk = some false)
    (hw : WritesSucceed 4 s) :
    (writeAll (bitWrites b) s).dev.stage = (b :: s.dev.stage).take s.par.devLen ∧
      (writeAll (bitWrites b) s).dev.out = s.dev.out ∧ DeviceKnown (writeAll (bitWrites b) s) := by
  have f1 := writeFails_false hw
  have k1 := deviceKnown_lineWrite (e := ⟨.ser, b⟩) hk f1
  have d1 := lineWrite_dev_keep (e := ⟨.ser, b⟩) hk f1 (by simp)
  have w1 : WritesSucceed 3 (lineWrite ⟨.ser, b⟩ s) := writesSucceed_lineWrite _ hw
  have lc : level (lineWrite ⟨.ser, b⟩ s) .clk = some false := by simp [level_lineWrite, hl]
  have ls : level (lineWrite ⟨.ser, b⟩ s) .ser = some b := by simp [level_lineWrite, writtenLevel_succeeds f1]
  have f2 := writeFails_false w1
  have k2 := deviceKnown_lineWrite (e := ⟨.clk, true⟩) k1 f2
  have d2s : (lineWrite ⟨.clk, true⟩ (lineWrite ⟨.ser, b⟩ s)).dev.stage = (b :: s.dev.stage).take s.par.devLen := by
    rw [lineWrite_dev_known k1 f2]
    simp only [level, PerLine.get] at ls
    simp [settledDevice, stageAfter, clockEdge, lc, incomingBit, writeLine_clk_ser, ls, shiftStage, d1.1]
  have d2o : (lineWrite ⟨.clk, true⟩ (lineWrite ⟨.ser, b⟩ s)).dev.out = s.dev.out := by
    rw [lineWrite_dev_known k1 f2]
    simp [settledDevice, outAfter, latchEdge, d1.2]
  have h3 := writeAll_dev_keep (ws := [⟨.ser, false⟩, ⟨.clk, false⟩]) k2 (writesSucceed_lineWrite _ w1) (by simp)
  exact ⟨h3.1.trans d2s, h3.2.1.trans d2o, h3.2.2⟩

theorem take_append_take {α : Type} (xs ys : List α) (n : Nat) : (xs ++ ys.take n).take n = (xs ++ ys).take n := by
  rw [List.take_append, List.take_append, List.take_take, Nat.min_eq_left (Nat.sub_le _ _)]

theorem bitsWrites_dev {bits : List Bool} {s : State} (hk : DeviceKnown s) (hl : level s .clk = some false)
    (hw : WritesSucceed (4 * bits.length) s) (hsz : s.dev.stage.length ≤ s.par.devLen) :
    (writeAll (bits.flatMap bitWrites) s).dev.stage = (bits.reverse ++ s.dev.stage).take s.par.devLen ∧
      (writeAll (bits.flatMap bitWrites) s).dev.out = s.dev.out ∧
      DeviceKnown (writeAll (bits.flatMap bitWrites) s) := by
  induction bits generalizing s with
  | nil => exact ⟨by simp [List.take_of_length_le hsz], rfl, hk⟩
  | cons b bs ih =>
    have hw0 : WritesSucceed 4 s := writesSucceed_mono (by simp only [List.length_cons]; omega) hw
    have h1 := bitWrites_dev (b := b) hk hl hw0
    have hlc : level (writeAll (bitWrites b) s) .clk = some false := by
      simpa using atRest_bits (bits := [b]) hw0 hl
    have hw1 : WritesSucceed (4 * bs.length) (writeAll (bitWrites b) s) :=
      writesSucceed_writeAll (by simpa [bitWrites, Nat.mul_add, Nat.add_comm] using hw)
    have h2 := ih h1.2.2 hlc hw1 (by rw [h1.1]; simp)
    simp only [List.flatMap_cons, writeAll_append]
    refine ⟨?_, h2.2.1.trans h1.2.1, h2.2.2⟩
    rw [h2.1, h1.1, writeAll_par, take_append_take]
    simp

theorem pulseLat_dev {s : State} (hk : DeviceKnown s) (hl : level s .lat = some false) (hw : WritesSucceed 2 s) :
    (writeAll pulseLat s).dev.out = s.dev.stage ∧ (writeAll pulseLat s).dev.stage = s.dev.stage ∧
      DeviceKnown (writeAll pulseLat s) := by
  have hf := writeFails_false hw
  have h1 : (lineWrite ⟨.lat, true⟩ s).dev.out = s.dev.stage ∧
      (lineWrite ⟨.lat, true⟩ s).dev.stage = s.dev.stage := by
    rw [lineWrite_dev_known hk hf]
    simp [settledDevice, stageAfter, outAfter, clockEdge, latchEdge, hl]
  have h2 := writeAll_dev_keep (ws := [⟨.lat, false⟩]) (deviceKnown_lineWrite (e := ⟨.lat, true⟩) hk hf)
    (writesSucceed_lineWrite _ hw) (by simp)
  exact ⟨h2.2.1.trans h1.1, h2.1.trans h1.2, h2.2.2⟩

theorem latchedByte_dev {value : Byte} {s : State} (hk : DeviceKnown s) (hr : AtRest s) (hw : WritesSucceed 34 s)
    (hsz : s.dev.stage.length ≤ s.par.devLen) :
    (writeAll (byteWrites true value) s).dev.stage = ((byteBits value).reverse ++ s.dev.stage).take s.par.devLen ∧
      (writeAll (byteWrites true value) s).dev.out = ((byteBits value).reverse ++ s.dev.stage).take s.par.devLen ∧
      DeviceKnown (writeAll (byteWrites true value) s) := by
  have hlen := byteBits_length value
  have h1 := bitsWrites_dev (bits := byteBits value) hk hr.2.1 (writesSucceed_mono (by rw [hlen]; omega) hw) hsz
  have hw1 : WritesSucceed 2 (writeAll ((byteBits value).flatMap bitWrites) s) :=
    writesSucceed_writeAll (by rw [bitWrites_flatMap_length, hlen]; exact hw)
  have hl : level (writeAll ((byteBits value).flatMap bitWrites) s) .lat = some false := by
    rw [level_writeAll_last (by rw [bitWrites_flatMap_length, hlen]; exact writesSucceed_mono (by omega) hw),
      (lastLevel_bits _ _).2.2, hr.2.2]
  have h2 := pulseLat_dev h1.2.2 hl hw1
  have e : byteWrites true value = (byteBits value).flatMap bitWrites ++ pulseLat := by simp [byteWrites]
  rw [e, writeAll_append]
  exact ⟨h2.2.1.trans h1.1, h2.1.trans h1.1, h2.2.2⟩

/-! ## A device being re-established (60_exceptions R178)

`Tracks sent s`: the positions of the shift stage that `sent` reaches hold it, newest bit first, whether or not a failed
write is outstanding. -/

/-- The bits sent so far stand in the shift stage. -/
structure Tracks (sent : List Bool) (s : State) : Prop where
  applies : observerApplies s = true
  len : s.dev.stage.length = s.par.devLen
  known : ∀ p, p < s.par.devLen → p < sent.length → s.dev.stage[p]? = sent[p]?
  count : ∀ k, s.dev.unsettled = some k → sent.length ≤ k

theorem tracks_nil {s : State} (ha : observerApplies s = true) (hs : DeviceSized s) : Tracks [] s :=
  ⟨ha, hs.1, by simp, by simp⟩

theorem tracks_congr {sent : List Bool} {s t : State} (h : Tracks sent s) (hp : t.par = s.par) (hc : t.cfg = s.cfg)
    (ha : ∀ l, (t.line.get l).activeHigh = (s.line.get l).activeHigh) (hd : t.dev = s.dev) : Tracks sent t :=
  ⟨observerApplies_congr h.applies hp hc ha, by rw [hd, hp]; exact h.len, by rw [hd, hp]; exact h.known,
    by rw [hd]; exact h.count⟩

theorem lineWrite_dev_applies {e : Event} {s : State} (ha : observerApplies s = true) (hf : writeFails s = false) :
    (lineWrite e s).dev = match s.dev.unsettled with
      | none => settledDevice e (level s e.line) (writeLine e s)
      | some k => unsettledDevice k e (level s e.line) (writeLine e s) := by
  rw [lineWrite_dev, hf]
  cases hu : s.dev.unsettled <;> simp [observe, observerApplies_writeLine ha, hu]

theorem tracks_edge {sent : List Bool} {s : State} {b : Bool} (h : Tracks sent s) (hf : writeFails s = false)
    (hl : level s .clk = some false) (hb : level s .ser = some b) :
    Tracks (b :: sent) (lineWrite ⟨.clk, true⟩ s) := by
  have hin : incomingBit (writeLine ⟨.clk, true⟩ s) = b := by
    simp only [level, PerLine.get] at hb
    simp [incomingBit, writeLine_clk_ser, hb]
  have hd := lineWrite_dev_applies (e := ⟨.clk, true⟩) h.applies hf
  simp only [hl] at hd
  have hst : stageAfter ⟨.clk, true⟩ (some false) (writeLine ⟨.clk, true⟩ s) =
      (b :: s.dev.stage).take s.par.devLen := by
    simp [stageAfter, clockEdge, shiftStage, hin]
  have hk : ∀ p, p < s.par.devLen → p < (b :: sent).length →
      ((b :: s.dev.stage).take s.par.devLen)[p]? = (b :: sent)[p]? := by
    intro p h1 h2
    rw [List.getElem?_take_of_lt h1]
    cases p with
    | zero => rfl
    | succ p => exact h.known p (by omega) (by simpa using h2)
  cases hu : s.dev.unsettled with
  | none =>
    rw [hu] at hd
    refine ⟨observerApplies_lineWrite h.applies, ?_, ?_, ?_⟩ <;> rw [hd] <;>
      simp only [settledDevice, lineWrite_par, hst]
    · simp [h.len]
    · exact hk
    · intro k hk
      cases hk
  | some k =>
    rw [hu] at hd
    have hc := h.count k hu
    have hs : (lineWrite ⟨.clk, true⟩ s).dev.stage = ((b :: s.dev.stage).take s.par.devLen).take (k + 1) ++
        (anyStage (writeLine ⟨.clk, true⟩ s)).drop (k + 1) := by
      rw [hd]
      simp [unsettledDevice, latchEdge, edgesAfter, clockEdge, hst]
    have hn : (lineWrite ⟨.clk, true⟩ s).dev.unsettled = some (k + 1) := by
      rw [hd]
      simp [unsettledDevice, latchEdge, edgesAfter, clockEdge]
    refine ⟨observerApplies_lineWrite h.applies, ?_, ?_, ?_⟩
    · rw [hs]
      simp [anyStage, h.len]
      omega
    · rw [hs]
      intro p h1 h2
      rw [lineWrite_par] at h1
      rw [List.getElem?_append_left, List.getElem?_take_of_lt (by simp at h2; omega), hk p h1 h2]
      simp [h.len] at h2 ⊢
      omega
    · rw [hn]
      intro j hj
      cases hj
      simp
      omega

theorem tracks_keep {sent : List Bool} {s : State} {e : Event} (h : Tracks sent s) (hf : writeFails s = false)
    (he : e.value = false ∨ e.line = .ser) : Tracks sent (lineWrite e s) := by
  have hd := lineWrite_dev_applies (e := e) h.applies hf
  have hce : ∀ p, clockEdge e p = false := by
    obtain ⟨l, v⟩ := e
    intro p
    rcases he with he | he <;> simp at he <;> simp [clockEdge, he]
  have hle : ∀ p, latchEdge e p = false := by
    obtain ⟨l, v⟩ := e
    intro p
    rcases he with he | he <;> simp at he <;> simp [latchEdge, he]
  have hne : e ≠ ⟨.clk, true⟩ := by
    rintro rfl
    simp at he
  cases hu : s.dev.unsettled with
  | none =>
    rw [hu] at hd
    refine ⟨observerApplies_lineWrite h.applies, ?_, ?_, ?_⟩ <;> rw [hd] <;>
      simp only [settledDevice, lineWrite_par, stageAfter, hce, hne]
    · simpa using h.len
    · simpa using h.known
    · intro k hk
      cases hk
  | some k =>
    rw [hu] at hd
    have hc := h.count k hu
    have hs : (lineWrite e s).dev.stage = s.dev.stage.take k ++ (anyStage (writeLine e s)).drop k := by
      rw [hd]
      simp [unsettledDevice, hle, edgesAfter, hce, stageAfter, hne]
    have hn : (lineWrite e s).dev.unsettled = some k := by
      rw [hd]
      simp [unsettledDevice, hle, edgesAfter, hce, hne]
    refine ⟨observerApplies_lineWrite h.applies, ?_, ?_, ?_⟩
    · rw [hs]
      simp [anyStage, h.len]
      omega
    · rw [hs]
      intro p h1 h2
      rw [lineWrite_par] at h1
      rw [List.getElem?_append_left, List.getElem?_take_of_lt (by omega), h.known p h1 h2]
      simp [h.len]
      omega
    · rw [hn]
      intro j hj
      cases hj
      exact hc

/-- A latch edge after enough bits re-establishes the device. -/
theorem tracks_latch {sent : List Bool} {s : State} (h : Tracks sent s) (hf : writeFails s = false)
    (hl : level s .lat = some false) (hn : s.par.devLen ≤ sent.length) :
    Tracks sent (lineWrite ⟨.lat, true⟩ s) ∧ DeviceKnown (lineWrite ⟨.lat, true⟩ s) ∧
      (lineWrite ⟨.lat, true⟩ s).dev.out = (lineWrite ⟨.lat, true⟩ s).dev.stage := by
  have hd : (lineWrite ⟨.lat, true⟩ s).dev = settledDevice ⟨.lat, true⟩ (some false) (writeLine ⟨.lat, true⟩ s) := by
    rw [lineWrite_dev_applies h.applies hf]
    cases hu : s.dev.unsettled with
    | none => simp [hl]
    | some k =>
      have := h.count k hu
      have : s.par.devLen ≤ k := by omega
      simp [unsettledDevice, latchEdge, hl, this]
  have hs : (lineWrite ⟨.lat, true⟩ s).dev.stage = s.dev.stage := by
    rw [hd]
    simp [settledDevice, stageAfter, clockEdge]
  have hu : (lineWrite ⟨.lat, true⟩ s).dev.unsettled = none := by
    rw [hd]
    rfl
  refine ⟨⟨observerApplies_lineWrite h.applies, ?_, ?_, ?_⟩, ⟨observerApplies_lineWrite h.applies, hu⟩, ?_⟩
  · rw [hs]
    simpa using h.len
  · rw [hs]
    simpa using h.known
  · rw [hu]
    intro k hk
    cases hk
  · rw [hs, hd]
    simp [settledDevice, outAfter, latchEdge]

theorem tracks_bit {sent : List Bool} {s : State} (b : Bool) (h : Tracks sent s) (hl : level s .clk = some false)
    (hw : WritesSucceed 4 s) : Tracks (b :: sent) (writeAll (bitWrites b) s) := by
  have h1 := tracks_keep (e := ⟨.ser, b⟩) h (writeFails_false hw) (by simp)
  have w1 : WritesSucceed 3 (lineWrite ⟨.ser, b⟩ s) := writesSucceed_lineWrite _ hw
  have lc : level (lineWrite ⟨.ser, b⟩ s) .clk = some false := by simp [level_lineWrite, hl]
  have ls : level (lineWrite ⟨.ser, b⟩ s) .ser = some b := by
    simp [level_lineWrite, writtenLevel_succeeds (writeFails_false hw)]
  have h2 := tracks_edge h1 (writeFails_false w1) lc ls
  have w2 : WritesSucceed 2 _ := writesSucceed_lineWrite ⟨.clk, true⟩ w1
  have h3 := tracks_keep (e := ⟨.ser, false⟩) h2 (writeFails_false w2) (by simp)
  have w3 : WritesSucceed 1 _ := writesSucceed_lineWrite ⟨.ser, false⟩ w2
  exact tracks_keep (e := ⟨.clk, false⟩) h3 (writeFails_false w3) (by simp)

theorem tracks_bits (bits : List Bool) {sent : List Bool} {s : State} (h : Tracks sent s)
    (hl : level s .clk = some false) (hw : WritesSucceed (4 * bits.length) s) :
    Tracks (bits.reverse ++ sent) (writeAll (bits.flatMap bitWrites) s) := by
  induction bits generalizing sent s with
  | nil => exact h
  | cons b bs ih =>
    have hw0 : WritesSucceed 4 s := writesSucceed_mono (by simp only [List.length_cons]; omega) hw
    have hlc : level (writeAll (bitWrites b) s) .clk = some false := by
      simpa using atRest_bits (bits := [b]) hw0 hl
    have hw1 : WritesSucceed (4 * bs.length) (writeAll (bitWrites b) s) :=
      writesSucceed_writeAll (by simpa [bitWrites, Nat.mul_add, Nat.add_comm] using hw)
    have := ih (tracks_bit b h hl hw0) hlc hw1
    simpa [writeAll_append] using this

end Sys2Proof.Machine
end

