-- ==== Sys2Proof/Laws/PerInstr.lean ====
section
/-! SUPPORT. Statements made one instruction at a time: the family RoundTrip, that decoding an encoded instruction gives it
back with every operand. -/

namespace Sys2Proof.Laws.RoundTrip

/-- Decoding the encoding of `i` gives `i`. -/
def Statement (i : Instr) : Prop := decode (encode i) = .instr i

theorem shiftBit (value : Bool) : Statement (.shiftBit value) := by
  simp [Statement, encode, commandWord_eq, decode_fieldsWord]

theorem shiftByte (latch : Bool) (value : Byte) : Statement (.shiftByte latch value) := by
  simp [Statement, encode, commandWord_eq, decode_fieldsWord]

theorem shiftClear : Statement .shiftClear := by
  simp [Statement, encode, commandWord_eq, decode_fieldsWord]

theorem latch : Statement .latch := by
  simp [Statement, encode, commandWord_eq, decode_fieldsWord]

theorem enableOutput (value : Bool) : Statement (.enableOutput value) := by
  simp [Statement, encode, commandWord_eq, decode_fieldsWord]

theorem getBitLength : Statement .getBitLength := by
  simp [Statement, encode, commandWord_eq, decode_fieldsWord]

end Sys2Proof.Laws.RoundTrip
end

