-- ==== Sys2Proof/Tests/Slice0.lean ====
section
/-! SUPPORT. Tests and witnesses. Expected results come from 95_test_vectors.md (W, V-.. and P numbers) or from the
encodings of 30_encoding.md; a witness shows a concrete state and operands that meet a statement's hypotheses. -/

namespace Sys2Proof.Tests

open Sys2Proof.Machine

/-! ## Helpers -/

/-- A chain of `len` positions that holds the number `v`. -/
def chain (len v : Nat) : List Bool := (List.range len).map (fun p => v.testBit p)

/-- A device that holds `v` in both stages and shows it. -/
def device (len v : Nat) : Device :=
  { stage := chain len v, out := chain len v, outputs := (chain len v).map .driven, unsettled := none }

/-- An active-high line whose level is `v` and has landed. -/
def lineAt (v : Option Bool) : LineState :=
  { pinId := 0, activeHigh := true, variant := .hardware, lvl := v, pin := v }

/-- Reference wiring with DEV_LEN `len`. -/
def wiring (len : Nat) : Params := { Params.reference with devLen := len }

/-- A constructed engine at rest, OE (when present) at true, with declared length `n` and a chain of `len` that holds `v`. -/
def engine (n len v : Nat) (oe : Bool) : State :=
  { State.reset with
    par := wiring len
    constructed := true
    cfg := { present := { ser := true, clk := true, lat := true, oe := oe }, bitLength := BitVec.ofNat 32 n }
    line := { ser := lineAt (some false), clk := lineAt (some false), lat := lineAt (some false), oe := lineAt (some true) }
    dev := device len v }

/-- The same lines, able to fail, with the reports to come. -/
def reporting (reports : List Bool) (s : State) : State :=
  { s with par := { s.par with lineWriteCanFail := true }, lineReports := reports }

/-- The same lines, deferring their writes. -/
def deferring (ticks : List Nat) (s : State) : State := { s with par := { s.par with ioDeferred := true }, ticks := ticks }

/-- An inverting CLK line at level false (V-L2, V-L3). -/
def invertedClk : State :=
  { engine 8 8 0 true with
    line := { ser := lineAt (some false)
              clk := { pinId := 1, activeHigh := false, variant := .hardware, lvl := some false, pin := some true }
              lat := lineAt (some false), oe := lineAt (some true) } }

/-- A recording fake at level `v` (40_output_line R95(b)). -/
def fakeAt (v : Option Bool) : LineState :=
  { pinId := 0, activeHigh := true, variant := .recordingFake, lvl := v, pin := none }

/-- An engine on four recording fakes, the source's test double. -/
def fakes : State :=
  { engine 8 8 0 true with
    line := { ser := fakeAt (some false), clk := fakeAt (some false), lat := fakeAt (some false), oe := fakeAt (some true) } }

/-- The next state an operation answers, if it answers one. -/
def answered : Result → Option State
  | .next s => some s
  | .fault _ => none
  | .refused _ => none

/-- The next state an operation answers, or `s`. -/
def after (r : Result) (s : State) : State := (answered r).getD s

/-- What a result adds to the trace, and its last response. -/
def effect (r : Result) : Option (List Event × Option Response) :=
  (answered r).map (fun t => (t.trace, t.responses.getLast?))

/-- `BIT(v)` of 95_test_vectors. -/
def BIT (v : Bool) : List Event := [⟨.ser, v⟩, ⟨.clk, true⟩, ⟨.ser, false⟩, ⟨.clk, false⟩]

/-- `PULSE` of 95_test_vectors. -/
def PULSE : List Event := [⟨.lat, true⟩, ⟨.lat, false⟩]

/-! ## Well-formedness: each check refuses an ill-formed term -/

theorem test_wf_params_max : Params.wf { Params.reference with bitLengthMax := 7#32 } = false := by decide
theorem test_wf_params_devLen : Params.wf (wiring 0) = false := by decide
theorem test_wf_params_reference : Params.wf Params.reference = true := by decide
theorem test_wf_record_zero_length : ConstructRecord.wf Params.reference ⟨0xF#4, 0#32⟩ = false := by decide
theorem test_wf_record_long :
    ConstructRecord.wf { Params.reference with bitLengthMax := 8#32 } ⟨0xF#4, 9#32⟩ = false := by decide
theorem test_wf_record_no_ser : ConstructRecord.wf Params.reference ⟨0b1110#4, 8#32⟩ = false := by decide
theorem test_wf_record_no_clk : ConstructRecord.wf Params.reference ⟨0b1101#4, 8#32⟩ = false := by decide
theorem test_wf_record_no_lat : ConstructRecord.wf Params.reference ⟨0b1011#4, 8#32⟩ = false := by decide
theorem test_wf_record_no_oe : ConstructRecord.wf Params.reference ⟨0b0111#4, 5#32⟩ = true := by decide
theorem test_wf_immediate : immFits 256 = false ∧ immFits 255 = true := by decide
theorem test_wf_asm_byte : AsmLine.wf (.shiftByte 256 none) = false := by decide
theorem test_wf_asm_chain : AsmLine.wf (.shiftChain []) = false ∧ AsmLine.wf (.shiftChain [0, 300]) = false := by decide

/-! ## Decoding: words written bit by bit as OP, RSV, F, IMM8 (30_encoding R70, R72, R80) -/

theorem test_decode_shiftBit :
    decode 0b0001_000_0_00000000#16 = .instr (.shiftBit false) ∧
    decode 0b0001_000_1_00000000#16 = .instr (.shiftBit true) := by decide
theorem test_decode_shiftByte :
    decode 0b0010_000_1_10110000#16 = .instr (.shiftByte true 0xB0#8) ∧
    decode 0b0010_000_0_00000001#16 = .instr (.shiftByte false 0x01#8) := by decide
theorem test_decode_shiftClear : decode 0b0011_000_0_00000000#16 = .instr .shiftClear := by decide
theorem test_decode_latch : decode 0b0100_000_0_00000000#16 = .instr .latch := by decide
theorem test_decode_enableOutput :
    decode 0b0101_000_0_00000000#16 = .instr (.enableOutput false) ∧
    decode 0b0101_000_1_00000000#16 = .instr (.enableOutput true) := by decide
theorem test_decode_getBitLength : decode 0b0110_000_0_00000000#16 = .instr .getBitLength := by decide

/-- The table of 95_test_vectors 2.8, and V-B4, V-K9, V-T7, V-T8, V-G3. -/
theorem test_decode_illegal :
    decode 0x0000#16 = .illegal .unassignedOpcode ∧ decode 0x7000#16 = .illegal .unassignedOpcode ∧
    decode 0xF000#16 = .illegal .unassignedOpcode ∧ decode 0x1200#16 = .illegal .reservedNotZero ∧
    decode 0x2FFF#16 = .illegal .reservedNotZero ∧ decode 0x2300#16 = .illegal .reservedNotZero ∧
    decode 0x3100#16 = .illegal .fieldNotZero ∧ decode 0x30FF#16 = .illegal .fieldNotZero ∧
    decode 0x1101#16 = .illegal .fieldNotZero ∧ decode 0x3001#16 = .illegal .fieldNotZero ∧
    decode 0x4100#16 = .illegal .fieldNotZero ∧ decode 0x5001#16 = .illegal .fieldNotZero ∧
    decode 0x6001#16 = .illegal .fieldNotZero := by decide

/-- 30_encoding R80's table, the other way. -/
theorem test_encode :
    encode (.shiftBit true) = 0x1100#16 ∧ encode (.shiftByte true 0xB0#8) = 0x21B0#16 ∧
    encode (.shiftByte false 0xFF#8) = 0x20FF#16 ∧ encode .shiftClear = 0x3000#16 ∧ encode .latch = 0x4000#16 ∧
    encode (.enableOutput true) = 0x5100#16 ∧ encode .getBitLength = 0x6000#16 := by decide

theorem test_decodeTableWord :
    decodeTableWord 16 0x21B0 = some (.shiftByte true 0xB0#8) ∧ decodeTableWord 16 0x7000 = none ∧
    decodeTableWord 32 0x14000 = none := by decide

/-- 30_encoding R79 and R78. -/
theorem test_codes :
    eventCode ⟨.clk, true⟩ = 0b011#3 ∧ eventCode ⟨.lat, true⟩ = 0b101#3 ∧ statusCode .notConstructed = 5#4 := by decide

/-- 30_encoding R80, R81: a program with a comment, both Boolean spellings and the three number forms. -/
theorem test_assembler :
    assembleText "shift_chain 0x12, 0b110100 ; two bytes\nenable_output false\n\noutputs_off" =
      some [0x2012#16, 0x2134#16, 0x5000#16, 0x5100#16] := by decide

/-! ## The output line (95_test_vectors 2.1) -/

/-- V-L1. -/
theorem test_line_first_write :
    level (lineWrite ⟨.ser, false⟩ State.reset) .ser = some false ∧
    phys (lineWrite ⟨.ser, false⟩ State.reset) .ser = some false ∧
    (lineWrite ⟨.ser, false⟩ State.reset).trace = [⟨.ser, false⟩] := by decide

/-- V-L2 and V-L3. -/
theorem test_line_inverted :
    level (lineWrite ⟨.clk, true⟩ invertedClk) .clk = some true ∧
    (lineWrite ⟨.clk, true⟩ invertedClk).line.clk.pin = some false ∧
    level (lineWrite ⟨.clk, false⟩ invertedClk) .clk = some false ∧
    (lineWrite ⟨.clk, false⟩ invertedClk).line.clk.pin = some true ∧
    (lineWrite ⟨.clk, false⟩ invertedClk).trace = [⟨.clk, false⟩] := by decide

/-- 40_output_line R93: a deferred write waits, and lands at a tick. -/
theorem test_line_deferred :
    (lineWrite ⟨.oe, false⟩ (deferring [1] (engine 8 8 0 true))).line.oe.pin = some true ∧
    (schedulerTick (lineWrite ⟨.oe, false⟩ (deferring [1] (engine 8 8 0 true)))).line.oe.pin = some false := by decide

/-- 40_output_line R95(b): a fake line takes the level, keeps the record, and drives nothing; its neighbours do not share
the record. -/
theorem test_line_fake :
    level (lineWrite ⟨.oe, false⟩ fakes) .oe = some false ∧
    lineRecord .oe (lineWrite ⟨.oe, false⟩ fakes).trace = [⟨.oe, false⟩] ∧
    lineRecord .ser (lineWrite ⟨.oe, false⟩ fakes).trace = [] ∧
    (lineWrite ⟨.oe, false⟩ fakes).line.oe.pin = none ∧
    (lineWrite ⟨.oe, false⟩ (deferring [] fakes)).queue = [] := by decide

/-- 40_output_line R95: V-B1's trace, recorded by four fakes. -/
theorem test_fakes_record_the_trace :
    effect (exec (.shiftBit true) fakes) = some (BIT true, some ⟨.ok, 0#32⟩) ∧
    lineRecord .clk (after (exec (.shiftBit true) fakes) fakes).trace = [⟨.clk, true⟩, ⟨.clk, false⟩] := by decide

/-- V-B1 on four fakes, which are active-high: the observer follows the levels (60_exceptions R168, R171). -/
theorem test_fakes_shift_the_observer :
    (after (exec (.shiftBit true) { fakes with dev := device 8 0b0110 }) fakes).dev.stage = chain 8 0b1101 ∧
    (after (exec .latch { fakes with dev := { device 8 0 with stage := chain 8 5 } }) fakes).dev.out = chain 8 5 := by
  decide

/-! ## Construction (95_test_vectors 2.2) -/

/-- V-C1 and V-C2. -/
theorem test_construct :
    effect (construct ⟨0xF#4, 8#32⟩ State.reset) =
      some ([⟨.ser, false⟩, ⟨.lat, false⟩, ⟨.clk, false⟩, ⟨.oe, true⟩], some ⟨.ok, 0#32⟩) ∧
    effect (construct ⟨0x7#4, 5#32⟩ State.reset) =
      some ([⟨.ser, false⟩, ⟨.lat, false⟩, ⟨.clk, false⟩], some ⟨.ok, 0#32⟩) := by decide

/-- V-C3 to V-C7, W1. -/
theorem test_construct_errors :
    effect (construct ⟨0x8#4, 8#32⟩ State.reset) = some ([], some ⟨.configMissingLine, 0b111#32⟩) ∧
    effect (construct ⟨0xA#4, 8#32⟩ State.reset) = some ([], some ⟨.configMissingLine, 0b101#32⟩) ∧
    effect (construct ⟨0x6#4, 16#32⟩ State.reset) = some ([], some ⟨.configMissingLine, 0b001#32⟩) ∧
    answered (construct ⟨0xF#4, 0#32⟩ State.reset) = none ∧ answered (construct ⟨0x0#4, 0#32⟩ State.reset) = none := by
  decide

/-! ## The commands -/

/-- V-B1 on a chain that holds 0b0110 (W4). -/
theorem test_shiftBit :
    effect (exec (.shiftBit true) (engine 4 4 0b0110 true)) = some (BIT true, some ⟨.ok, 0#32⟩) ∧
    (after (exec (.shiftBit true) (engine 4 4 0b0110 true)) State.reset).dev.stage = chain 4 0b1101 ∧
    (after (exec (.shiftBit true) (engine 4 4 0b0110 true)) State.reset).dev.out = chain 4 0b0110 := by decide

/-- V-F1: the second write fails. -/
theorem test_shiftBit_fails :
    effect (exec (.shiftBit true) (reporting [false, true] (engine 8 8 0 true))) =
      some ([⟨.ser, true⟩, ⟨.clk, true⟩], some ⟨.lineWriteFailed, 0b011#32⟩) ∧
    level (after (exec (.shiftBit true) (reporting [false, true] (engine 8 8 0 true))) State.reset) .ser = some true := by
  decide

set_option maxRecDepth 100000 in
/-- V-Y6 (W5). -/
theorem test_shiftByte :
    effect (exec (.shiftByte true 0xB0#8) (engine 8 8 0 true)) =
      some (BIT true ++ BIT false ++ BIT true ++ BIT true ++ BIT false ++ BIT false ++ BIT false ++ BIT false ++ PULSE,
        some ⟨.ok, 0#32⟩) := by decide

set_option maxRecDepth 100000 in
/-- V-Y8: five positions keep the low five bits of 0xA5. -/
theorem test_shiftByte_short_chain :
    (after (exec (.shiftByte true 0xA5#8) (engine 5 5 0 false)) State.reset).dev = device 5 0x05 := by decide

set_option maxRecDepth 100000 in
/-- V-K8: N = 8 on a chain of 16 that holds 0xABCD. -/
theorem test_shiftClear :
    (after (exec .shiftClear (engine 8 16 0xABCD false)) State.reset).dev = device 16 0xCD00 := by decide

/-- V-K5 (W7). -/
theorem test_shiftClear_misaligned :
    effect (exec .shiftClear (engine 20 20 0 true)) = some ([], some ⟨.configNotByteAligned, 20#32⟩) := by decide

/-- V-T1: the output stage takes the shift stage. -/
theorem test_latch :
    effect (exec .latch { engine 4 4 0 false with dev := { device 4 0 with stage := chain 4 0b1010 } }) =
      some (PULSE, some ⟨.ok, 0#32⟩) ∧
    (after (exec .latch { engine 4 4 0 false with dev := { device 4 0 with stage := chain 4 0b1010 } }) State.reset).dev =
      device 4 0b1010 := by decide

/-- V-F2: the first write fails. -/
theorem test_latch_fails :
    effect (exec .latch (reporting [true] (engine 8 8 0 true))) =
      some ([⟨.lat, true⟩], some ⟨.lineWriteFailed, 0b101#32⟩) := by decide

/-- V-T3 and V-T5 (W8): OE present. -/
theorem test_enableOutput :
    effect (exec (.enableOutput false) (engine 4 4 5 true)) = some ([⟨.oe, false⟩], some ⟨.ok, 0#32⟩) ∧
    (after (exec (.enableOutput false) (engine 4 4 5 true)) State.reset).dev.outputs = (chain 4 5).map .driven ∧
    effect (exec (.enableOutput true) (engine 4 4 5 true)) = some ([⟨.oe, true⟩], some ⟨.ok, 0#32⟩) ∧
    (after (exec (.enableOutput true) (engine 4 4 5 true)) State.reset).dev.outputs = [.z, .z, .z, .z] := by decide

/-- V-T6: OE absent. -/
theorem test_enableOutput_absent :
    effect (exec (.enableOutput true) (engine 4 4 5 false)) = some ([], some ⟨.ok, 0#32⟩) := by decide

/-- V-G1 and V-G4. -/
theorem test_getBitLength :
    effect (exec .getBitLength (engine 24 24 0 true)) = some ([], some ⟨.ok, 24#32⟩) ∧
    effect (exec .getBitLength State.reset) = some ([], some ⟨.notConstructed, 0#32⟩) := by decide

/-- 95_test_vectors 2.8, last row: an illegal word before construction is illegal, and the position moves on. -/
theorem test_step_illegal :
    effect (step (State.reset.withFetchWord 16 0x7000)) = some ([], some ⟨.illegalCommand, 0x7000#32⟩) ∧
    (after (step (State.reset.withFetchWord 16 0x7000)) State.reset).hpc = 1 := by decide

/-- V-B5 through `withFetchWord`. -/
theorem test_step_before_construction :
    effect (step (State.reset.withFetchWord 16 0x1100)) = some ([], some ⟨.notConstructed, 0#32⟩) := by decide

/-! ## Witnesses: encoding and steps -/

theorem witness_DecodeInvertsEncode : decode 0x21FF#16 = .instr (.shiftByte true 0xFF#8) := by decide

theorem witness_OpcodeMapGivesEachCommand : decode 0x5100#16 = .instr (.enableOutput true) := by decide

theorem witness_EventCodesAreLineThenValue : eventCode ⟨.oe, true⟩ = eventCode ⟨.oe, true⟩ := by decide

theorem witness_PseudoInstructionsExpand : (∀ n ∈ [0, 255], n ≤ 255) ∧ 255 ≤ 255 := by decide

theorem witness_StepRunsTheDecodedCommand :
    (State.reset.withFetchWord 16 0x4000).pending = .command 0x4000#16 :: [] ∧ decode 0x4000#16 = .instr .latch ∧
    (State.reset.withFetchWord 16 0x0000).pending = .command 0x0000#16 :: [] ∧
    decode 0x0000#16 = .illegal .unassignedOpcode ∧
    { State.reset with pending := [.construct ⟨0xF#4, 8#32⟩] }.pending = .construct ⟨0xF#4, 8#32⟩ :: [] := by decide

/-- A host that is about to construct. -/
def constructing (r : ConstructRecord) (s : State) : State := { s with pending := [.construct r] }

theorem witness_HostPositionAdvancesOncePerCommand :
    State.reset.pending = [] ∧ (State.reset.withFetchWord 16 0x4000).pending = .command 0x4000#16 :: [] ∧
    (constructing ⟨0xF#4, 8#32⟩ State.reset).pending = .construct ⟨0xF#4, 8#32⟩ :: [] ∧
    (answered (step (constructing ⟨0xF#4, 8#32⟩ State.reset))).isSome = true ∧
    (answered (exec .latch (engine 8 8 0 true))).isSome = true := by decide

theorem witness_ChecksRunInTheirOrder_command :
    IllegalWord 0x3001#16 ∧ ¬ IllegalWord 0x3000#16 ∧ State.reset.constructed = false ∧
    (engine 7 8 0 true).constructed = true ∧ (engine 7 8 0 true).cfg.bitLength.toNat % 8 ≠ 0 ∧
    ¬ ((0x3000 : CmdWord) = 0x3000#16 ∧ (engine 8 8 0 true).cfg.bitLength.toNat % 8 ≠ 0) ∧
    ¬ ((0x1100 : CmdWord) = 0x3000#16 ∧ (engine 7 8 0 true).cfg.bitLength.toNat % 8 ≠ 0) := by decide

/-- All four writes of SHIFT_BIT succeed; the first fails; the last fails. -/
theorem witness_ChecksRunInTheirOrder_writes :
    decode 0x1100#16 = .instr (.shiftBit true) ∧
    WritesSucceed (successWrites (.shiftBit true) (engine 7 8 0 true)) (reporting [false] (engine 7 8 0 true)) ∧
    FirstFailureAt 0 (reporting [true] (engine 7 8 0 true)) ∧
    (commandWrites (.shiftBit true) (engine 7 8 0 true))[0]? = some ⟨.ser, true⟩ ∧
    FirstFailureAt 3 (reporting [false, false, false, true] (engine 7 8 0 true)) ∧
    (commandWrites (.shiftBit true) (engine 7 8 0 true))[3]? = some ⟨.clk, false⟩ := by decide

/-- The bounds of the range: 0, 1, BIT_LENGTH_MAX and one more. -/
theorem witness_ChecksRunInTheirOrder_construct :
    (0 : Data).toNat = 0 ∧ (8 : Data).toNat < (9 : Data).toNat ∧ ¬ ((1 : Data).toNat = 0 ∨ (8 : Data).toNat < 1) ∧
    ¬ ((8 : Data).toNat = 0 ∨ (8 : Data).toNat < (8 : Data).toNat) ∧
    (0x7#4).getLsbD 0 = true ∧ (0x7#4).getLsbD 1 = true ∧ (0x7#4).getLsbD 2 = true ∧ (0x7#4).getLsbD 3 = false ∧
    ¬ ((0x3#4).getLsbD 0 = true ∧ (0x3#4).getLsbD 1 = true ∧ (0x3#4).getLsbD 2 = true) ∧
    WritesSucceed (constructWrites ((0x7#4).getLsbD 3)).length (reporting [false, false, false, true] State.reset) ∧
    FirstFailureAt 2 (reporting [false, false, true] State.reset) ∧
    (constructWrites ((0x7#4).getLsbD 3))[2]? = some ⟨.clk, false⟩ ∧
    FirstFailureAt 3 (reporting [false, false, false, true] State.reset) ∧
    (constructWrites ((0xF#4).getLsbD 3))[3]? = some ⟨.oe, true⟩ := by decide

/-! ## Witnesses: the output line -/

/-- Writes that succeed: on lines that cannot fail, on lines that report no failure, and on lines whose reports ran out. -/
theorem witness_LineWriteSetsLevelPinAndTrace :
    (engine 8 8 0 true).par.lineWriteCanFail = false ∧ writeFails (engine 8 8 0 true) = false ∧
    writeFails (reporting [false] (engine 8 8 0 true)) = false ∧ writeFails (reporting [] State.reset) = false ∧
    (engine 8 8 0 true).par.ioDeferred = false ∧ (deferring [] State.reset).par.ioDeferred = true ∧
    writeFails (deferring [] State.reset) = false ∧
    ((engine 8 8 0 true).line.get .ser).variant = .hardware ∧ (fakes.line.get .ser).variant = .recordingFake ∧
    writeFails fakes = false := by decide

theorem witness_SameLevelWriteStillAppends :
    writeFails (engine 8 8 0 true) = false ∧ level (engine 8 8 0 true) .oe = some true := by decide

theorem witness_PhysicalLevelIsLevelXorNotActiveHigh :
    level State.reset .clk = none ∧ level invertedClk .clk = some false := by decide

theorem witness_SchedulerTickLandsOldestWritesInOrder :
    State.reset.par.ioDeferred = false ∧ (deferring [1, 2] State.reset).par.ioDeferred = true ∧
    (deferring [1, 2] State.reset).ticks = 1 :: [2] ∧ writeFails (deferring [1, 2] State.reset) = false ∧
    ((deferring [1, 2] State.reset).line.get .clk).variant = .hardware ∧
    (lineWrite ⟨.lat, false⟩ (lineWrite ⟨.lat, true⟩ (deferring [1] State.reset))).queue =
      [⟨.lat, true⟩, ⟨.lat, false⟩] := by decide

theorem witness_TraceOnlyGrows :
    (answered (step ((engine 8 8 0 true).withFetchWord 16 0x4000))).map State.trace = some PULSE := by decide

/-- Both variants, direct and deferred, a command and a construction on fakes, and a step. -/
theorem witness_LineVariantsDriveOrOnlyRecord :
    ((engine 8 8 0 true).line.get .clk).variant = .hardware ∧ writeFails (engine 8 8 0 true) = false ∧
    (engine 8 8 0 true).par.ioDeferred = false ∧ (deferring [] (engine 8 8 0 true)).par.ioDeferred = true ∧
    writeFails (deferring [] (engine 8 8 0 true)) = false ∧ (fakes.line.get .clk).variant = .recordingFake ∧
    (answered (exec (.shiftBit true) fakes)).isSome = true ∧
    (answered (construct ⟨0xF#4, 8#32⟩ (deferring [] fakes))).isSome = true ∧
    (answered (step (fakes.withFetchWord 16 0x1100))).isSome = true := by decide

/-! ## Witnesses: construction -/

theorem witness_ConstructionBringsUpTheEngine :
    1 ≤ (1 : Data).toNat ∧ (1 : Data).toNat ≤ State.reset.par.bitLengthMax.toNat ∧
    State.reset.par.bitLengthMax.toNat ≤ (0xFFFFFFFF#32).toNat ∧ WritesSucceed 4 State.reset ∧
    WritesSucceed (if (0xF#4).getLsbD 3 then 4 else 3) (reporting [false, false, false, false, true] State.reset) ∧
    WritesSucceed (if (0x7#4).getLsbD 3 then 4 else 3) (reporting [false, false, false, true] State.reset) ∧
    DeviceKnown (newEngine ⟨0xF#4, 8#32⟩ State.reset) ∧ DeviceKnown (newEngine ⟨0x7#4, 8#32⟩ (engine 8 8 1 true)) := by
  decide

theorem witness_MissingLineConstructionChangesNothing :
    ((0xA#4).getLsbD 0 = false ∨ (0xA#4).getLsbD 1 = false ∨ (0xA#4).getLsbD 2 = false) ∧
    (answered (construct ⟨0xA#4, 8#32⟩ (engine 8 8 0 true))).isSome = true ∧
    (answered (construct ⟨0x7#4, 8#32⟩ (engine 8 8 0 true))).isSome = true := by decide

theorem witness_OnlyOutOfRangeLengthIsRefused :
    step (constructing ⟨0xF#4, 0#32⟩ State.reset) = .refused .bitLengthOutOfRange := rfl

theorem witness_OnlyConstructionChangesConfiguration :
    (answered (step (constructing ⟨0xF#4, 16#32⟩ (engine 8 8 0 true)))).map (fun t => t.cfg.bitLength) = some 16#32 ∧
    (answered (step (constructing ⟨0xF#4, 16#32⟩ State.reset))).map (fun t => t.constructed) = some true ∧
    (answered (construct ⟨0x7#4, 16#32⟩ invertedClk)).map (fun t => t.line.clk.activeHigh) = some false := by decide

/-! ## Witnesses: the commands -/

theorem witness_ShiftBitIssuesItsFourWrites :
    (engine 5 5 0 true).constructed = true ∧ WritesSucceed 4 (engine 5 5 0 true) ∧
    WritesSucceed 4 (reporting [false, false, false, false, true] (engine 5 5 0 true)) := by decide

theorem witness_ShiftByteIssuesEightBitsThenLatch :
    (engine 5 5 0 true).constructed = true ∧ WritesSucceed 34 (engine 5 5 0 true) ∧
    WritesSucceed 34 (reporting [] (engine 5 5 0 true)) ∧
    WritesSucceed 32 (reporting (List.replicate 32 false ++ [true]) (engine 5 5 0 true)) := by decide

/-- The first and the last bit, and the engine the trace clause speaks of. -/
theorem witness_ByteBitIsMostSignificantFirst :
    0 ≤ 7 ∧ 7 ≤ 7 ∧ (engine 8 8 0 true).constructed = true ∧ WritesSucceed 32 (engine 8 8 0 true) ∧
    WritesSucceed 34 (engine 8 8 0 true) := by decide

theorem witness_ShiftClearShiftsLatchedZeroBytes :
    (engine 7 8 0 true).constructed = true ∧ (engine 7 8 0 true).cfg.bitLength.toNat % 8 ≠ 0 ∧
    (engine 8 8 0 true).cfg.bitLength.toNat % 8 = 0 ∧ (engine 24 8 0 true).cfg.bitLength.toNat % 8 = 0 ∧
    WritesSucceed (34 * ((engine 24 8 0 true).cfg.bitLength.toNat / 8)) (engine 24 8 0 true) := by decide

theorem witness_MisalignedClearIsWholeFailure :
    (engine 20 8 0 true).constructed = true ∧ (engine 20 8 0 true).cfg.bitLength.toNat % 8 ≠ 0 ∧
    (answered (exec .shiftClear (engine 20 8 0 true))).isSome = true := by decide

theorem witness_LatchIssuesOnePulse :
    (engine 8 8 1 true).constructed = true ∧ WritesSucceed 2 (engine 8 8 1 true) ∧ DeviceKnown (engine 8 8 1 true) ∧
    level (engine 8 8 1 true) .lat = some false := by decide

theorem witness_EnableOutputWritesOeWhenPresent :
    (engine 8 8 1 false).constructed = true ∧ (engine 8 8 1 false).cfg.present.oe = false ∧
    (engine 8 8 1 true).cfg.present.oe = true ∧ WritesSucceed 1 (engine 8 8 1 true) ∧
    WritesSucceed 1 (reporting [false] (engine 8 8 1 true)) := by decide

theorem witness_GetBitLengthAnswersN :
    (engine 5 5 0 true).constructed = true ∧ State.reset.constructed = false ∧
    (0x6001#16 : CmdWord).extractLsb' 12 4 = 0x6#4 ∧ (0x6001#16 : CmdWord) ≠ 0x6000#16 := by decide

theorem witness_SecondLatchChangesOnlyTheTrace :
    (engine 8 8 1 true).constructed = true ∧ WritesSucceed 4 (engine 8 8 1 true) ∧ DeviceKnown (engine 8 8 1 true) ∧
    level (engine 8 8 1 true) .lat = some false ∧ level (engine 8 8 1 true) .oe ≠ none ∧
    (engine 8 8 1 false).cfg.present.oe = false ∧ DeviceKnown (engine 8 8 1 false) ∧
    ((answered (exec .latch (engine 8 8 1 true))).bind (fun t => answered (exec .latch t))).isSome = true := by decide

theorem witness_WriteCountsAreTheTables :
    (engine 16 8 0 true).constructed = true ∧ Precondition .shiftClear (engine 16 8 0 true) ∧
    WritesSucceed (successWrites .shiftClear (engine 16 8 0 true)) (engine 16 8 0 true) ∧
    successWrites .shiftClear (engine 16 8 0 true) = 68 ∧ ¬ Precondition .shiftClear (engine 20 8 0 true) ∧
    State.reset.constructed = false ∧ IllegalWord 0x7000#16 ∧
    effect (construct ⟨0x7#4, 8#32⟩ State.reset) =
      some ([⟨.ser, false⟩, ⟨.lat, false⟩, ⟨.clk, false⟩], some ⟨.ok, 0#32⟩) := by decide

theorem witness_ShiftCommandsFrame :
    (∃ b, Instr.shiftBit true = .shiftBit b) ∧
    (answered (exec (.shiftBit true) (engine 8 8 0 true))).isSome = true ∧
    (answered (exec (.shiftBit true) (deferring [] (engine 8 8 0 true)))).isSome = true ∧
    (deferring [] (engine 8 8 0 true)).par.ioDeferred = true := ⟨⟨true, rfl⟩, by decide⟩

theorem witness_LatchAndOutputFrame :
    (answered (exec .latch (engine 8 8 0 true))).isSome = true ∧
    (answered (exec (.enableOutput true) (engine 8 8 0 true))).isSome = true ∧
    (answered (exec (.enableOutput true) (engine 8 8 0 false))).isSome = true ∧
    (engine 8 8 0 false).cfg.present.oe = false ∧ Instr.enableOutput true ≠ .latch := by decide

/-! ## Witnesses: errors -/

theorem witness_IllegalWordIsReportedAndIgnored :
    (IllegalWord 0x0FFF#16 ∧ IllegalWord 0x7000#16) ∧ (IllegalWord 0x1200#16 ∧ IllegalWord 0x4100#16) ∧
    IllegalWord 0x5001#16 := ⟨by decide, by decide, by decide⟩

theorem witness_CommandBeforeConstructionIsReported :
    ¬ IllegalWord 0x1100#16 ∧ State.reset.constructed = false := by decide

theorem witness_OnlyMisalignedClearIsAConfigurationError :
    (engine 1 8 0 true).constructed = true ∧ (engine 1 8 0 true).cfg.bitLength.toNat % 8 ≠ 0 ∧
    (answered (exec .shiftClear (engine 1 8 0 true))).map State.responses =
      some ((engine 1 8 0 true).responses ++ [⟨.configNotByteAligned, 1#32⟩]) := by decide

/-- The first and the last write of SHIFT_BIT as the failing one. -/
theorem witness_FailedWriteStopsItsCommand :
    (engine 8 8 0 true).constructed = true ∧ Precondition (.shiftBit true) (engine 8 8 0 true) ∧
    FirstFailureAt 0 (reporting [true] (engine 8 8 0 true)) ∧
    (commandWrites (.shiftBit true) (engine 8 8 0 true))[0]? = some ⟨.ser, true⟩ ∧
    FirstFailureAt 3 (reporting [false, false, false, true] (engine 8 8 0 true)) ∧
    (commandWrites (.shiftBit true) (engine 8 8 0 true))[3]? = some ⟨.clk, false⟩ := by decide

theorem witness_FailedConstructionWriteLeavesEngineConstructed :
    1 ≤ (8#32).toNat ∧ (8#32).toNat ≤ (reporting [false, false, false, true] State.reset).par.bitLengthMax.toNat ∧
    (0xF#4).getLsbD 0 = true ∧ (0xF#4).getLsbD 1 = true ∧ (0xF#4).getLsbD 2 = true ∧
    FirstFailureAt 3 (reporting [false, false, false, true] State.reset) ∧
    (constructWrites ((0xF#4).getLsbD 3))[3]? = some ⟨.oe, true⟩ ∧
    FirstFailureAt 0 (reporting [true] State.reset) := by decide

theorem witness_ErrorsArePrecise :
    effect (exec .latch State.reset) = some ([], some ⟨.notConstructed, 0#32⟩) ∧
    effect (construct ⟨0x0#4, 8#32⟩ State.reset) = some ([], some ⟨.configMissingLine, 7#32⟩) ∧
    Status.notConstructed ≠ .ok ∧ Status.notConstructed ≠ .lineWriteFailed ∧ Status.configMissingLine ≠ .ok ∧
    Status.configMissingLine ≠ .lineWriteFailed := by decide

/-! ## Witnesses: whole-machine rules -/

theorem witness_RestLevelsHoldBetweenCommands :
    (engine 8 8 0 true).par.lineWriteCanFail = false ∧ AtRest (engine 8 8 0 true) ∧
    (answered (step ((engine 8 8 0 true).withFetchWord 16 0x1100))).isSome = true ∧
    effect (construct ⟨0x7#4, 8#32⟩ (reporting [] State.reset)) =
      some ([⟨.ser, false⟩, ⟨.lat, false⟩, ⟨.clk, false⟩], some ⟨.ok, 0#32⟩) ∧
    effect (exec .latch (reporting [] (engine 8 8 0 true))) = some (PULSE, some ⟨.ok, 0#32⟩) := by decide

theorem witness_OnlyEnableOutputChangesOe :
    effect (construct ⟨0xF#4, 8#32⟩ State.reset) =
      some ([⟨.ser, false⟩, ⟨.lat, false⟩, ⟨.clk, false⟩, ⟨.oe, true⟩], some ⟨.ok, 0#32⟩) ∧ (0xF#4).getLsbD 3 = true ∧
    (answered (exec (.enableOutput false) (engine 8 8 0 true))).map (fun t => t.line.oe) ≠
      some (engine 8 8 0 true).line.oe ∧
    (answered (step ((engine 8 8 0 true).withFetchWord 16 0x5000))).map (fun t => level t .oe) = some (some false) := by
  decide

/-- Two states that differ in levels, variants, device and trace, and agree on what the engine may use. -/
theorem witness_EngineNeverReadsLinesOrDevice :
    (engine 8 8 0 true).constructed = (lineWrite ⟨.ser, true⟩ (engine 8 8 7 true)).constructed ∧
    (engine 8 8 0 true).cfg = (lineWrite ⟨.ser, true⟩ (engine 8 8 7 true)).cfg ∧
    (engine 8 8 0 true).par = (lineWrite ⟨.ser, true⟩ (engine 8 8 7 true)).par ∧
    (engine 8 8 0 true).lineReports = (lineWrite ⟨.ser, true⟩ (engine 8 8 7 true)).lineReports ∧
    engine 8 8 0 true ≠ lineWrite ⟨.ser, true⟩ (engine 8 8 7 true) ∧
    (engine 8 8 0 true).constructed = fakes.constructed ∧ (engine 8 8 0 true).cfg = fakes.cfg ∧
    (engine 8 8 0 true).par = fakes.par ∧ (engine 8 8 0 true).lineReports = fakes.lineReports ∧
    engine 8 8 0 true ≠ fakes := by decide

/-- A fresh engine on recording fakes meets the invariant's clause about them. -/
theorem fakes_meet_their_clause :
    ∀ l, (fakes.line.get l).variant = .recordingFake ∧ (fakes.line.get l).pin = none ∧
      fakes.queue.filter (fun q => q.line = l) = [] := fun l => by cases l <;> decide

/-- The state a construction from reset gives meets the invariant. -/
def built : State := after (step (constructing ⟨0xF#4, 8#32⟩ State.reset)) State.reset

theorem built_inv : StateInv built where
  mandatory := by decide
  lengthOk := by decide
  sized := by decide
  levels := fun _ l => by cases l <;> rfl
  rest := by decide
  pins := fun l _ => by cases l <;> rfl
  fakes := fun l h => by cases l <;> cases h
  direct := by decide

/-- A constructed machine with a command to run. -/
theorem witness_StepKeepsTheInvariant :
    StateInv (built.withFetchWord 16 0x4000) ∧ (answered (step (built.withFetchWord 16 0x4000))).isSome = true :=
  ⟨⟨built_inv.mandatory, built_inv.lengthOk, built_inv.sized, built_inv.levels, built_inv.rest, built_inv.pins,
    built_inv.fakes, built_inv.direct⟩, by decide⟩

/-! ## Witnesses: the attached device -/

/-- Lines whose CLK, LAT and SER have never been written. -/
def unwritten : State :=
  { engine 8 8 0 false with
    line := { ser := lineAt none, clk := lineAt none, lat := lineAt none, oe := lineAt none } }

/-- Each edge, at a known and at an unknown SER, and each way a write is no edge. -/
theorem witness_EdgesShiftAndLoad :
    DeviceKnown (engine 8 8 1 true) ∧ writeFails (engine 8 8 1 true) = false ∧ DeviceSized (engine 8 8 1 true) ∧
    level (engine 8 8 1 true) .clk = some false ∧ level (engine 8 8 1 true) .ser = some false ∧
    level (engine 8 8 1 true) .lat = some false ∧
    level (lineWrite ⟨.clk, true⟩ (engine 8 8 1 true)) .clk = some true ∧
    DeviceKnown (lineWrite ⟨.clk, true⟩ (engine 8 8 1 true)) ∧
    DeviceKnown (lineWrite ⟨.clk, false⟩ unwritten) ∧ level (lineWrite ⟨.clk, false⟩ unwritten) .clk = some false ∧
    level (lineWrite ⟨.clk, false⟩ unwritten) .ser = none ∧ 0 < (engine 8 8 1 true).par.devLen ∧
    6 + 1 < (engine 8 8 1 true).par.devLen := by decide

/-- OE absent, false, true, and never written. -/
theorem witness_OutputsFollowStageAndOe :
    DeviceKnown (engine 8 8 1 true) ∧ (engine 8 8 1 false).cfg.present.oe = false ∧
    level (lineWrite ⟨.oe, false⟩ (engine 8 8 1 true)) .oe = some false ∧
    level (lineWrite ⟨.ser, false⟩ (engine 8 8 1 true)) .oe = some true ∧
    DeviceKnown (newEngine ⟨0xF#4, 8#32⟩ unwritten) ∧
    level (lineWrite ⟨.ser, false⟩ (newEngine ⟨0xF#4, 8#32⟩ unwritten)) .oe = none := by decide

/-- An inverted line, and a platform too fast for the device. -/
theorem witness_ObserverClaimsNothingOutsideItsConditions :
    observerApplies invertedClk = false ∧
    observerApplies { engine 8 8 0 true with par := { wiring 8 with latencyAdequate := false } } = false := by decide

/-- A failed write outstanding on an engine at rest. -/
def unsettledAt (k : Nat) (s : State) : State := { s with dev := { s.dev with unsettled := some k } }

/-- A clock edge, an unknown CLK level, a write that is no edge, a latch edge one position short, and one that is not. -/
theorem witness_FailedWriteStaysOutstandingUntilReestablished :
    observerApplies (unsettledAt 7 (engine 8 8 1 true)) = true ∧
    (unsettledAt 7 (engine 8 8 1 true)).dev.unsettled = some 7 ∧ DeviceSized (unsettledAt 7 (engine 8 8 1 true)) ∧
    writeFails (unsettledAt 7 (engine 8 8 1 true)) = false ∧
    level (unsettledAt 7 (engine 8 8 1 true)) .clk = some false ∧ level (unsettledAt 7 (engine 8 8 1 true)) .ser = some false ∧
    level (unsettledAt 7 (engine 8 8 1 true)) .lat = some false ∧
    ¬ (unsettledAt 7 (engine 8 8 1 true)).par.devLen ≤ 7 ∧ (unsettledAt 8 (engine 8 8 1 true)).par.devLen ≤ 8 ∧
    observerApplies (unsettledAt 3 unwritten) = true ∧ DeviceSized (unsettledAt 3 unwritten) ∧
    level (unsettledAt 3 unwritten) .clk = none ∧ (⟨.ser, false⟩ : Event) ≠ ⟨.clk, true⟩ := by decide

theorem witness_EdgeFromUnknownLevelForgetsTheStage :
    DeviceKnown unwritten ∧ writeFails unwritten = false ∧ level unwritten .clk = none ∧ level unwritten .lat = none ∧
    StateInv built ∧ built.par.lineWriteCanFail = false ∧ built.constructed = true :=
  ⟨by decide, by decide, by decide, by decide, built_inv, by decide, by decide⟩

theorem witness_ShiftBitAdvancesTheShiftStage :
    (engine 5 5 3 true).constructed = true ∧ WritesSucceed 4 (engine 5 5 3 true) ∧ DeviceKnown (engine 5 5 3 true) ∧
    level (engine 5 5 3 true) .clk = some false := by decide

/-- P2's chain of 16 bits, with the device known and with a failed write outstanding, with OE absent and with OE present
at false, and with a failure reported just after the last write. -/
theorem witness_CompleteShiftLoadsTheChain :
    [0x12#8, 0x34#8] ≠ [] ∧ (engine 16 16 0 false).par.devLen ≤ 8 * [0x12#8, 0x34#8].length ∧
    { engine 16 16 0 false with pending := chainMoves [0x12#8, 0x34#8] }.pending = chainMoves [0x12#8, 0x34#8] ++ [] ∧
    (engine 16 16 0 false).constructed = true ∧ AtRest (engine 16 16 0 false) ∧
    observerApplies (engine 16 16 0 false) = true ∧ DeviceSized (engine 16 16 0 false) ∧
    WritesSucceed (32 * [0x12#8, 0x34#8].length + 2) (engine 16 16 0 false) ∧
    WritesSucceed (32 * [0x12#8, 0x34#8].length + 2)
      (reporting (List.replicate 66 false ++ [true]) (engine 16 16 0 false)) ∧
    AtRest (lineWrite ⟨.oe, false⟩ (engine 16 16 0 true)) ∧
    observerApplies (lineWrite ⟨.oe, false⟩ (engine 16 16 0 true)) = true ∧
    DeviceSized (lineWrite ⟨.oe, false⟩ (engine 16 16 0 true)) ∧
    (lineWrite ⟨.oe, false⟩ (engine 16 16 0 true)).cfg.present.oe = true ∧
    level (lineWrite ⟨.oe, false⟩ (engine 16 16 0 true)) .oe = some false ∧
    observerApplies { engine 16 16 0 false with dev := { device 16 0 with unsettled := some 3 } } = true ∧
    DeviceSized { engine 16 16 0 false with dev := { device 16 0 with unsettled := some 3 } } ∧
    (engine 16 16 0 false).cfg.present.oe = false := by decide

/-- The first and the last pulse. -/
theorem witness_ShiftClearShowsIntermediateContents :
    (engine 24 24 5 true).cfg.bitLength.toNat % 8 = 0 ∧
    (engine 24 24 5 true).par.devLen = (engine 24 24 5 true).cfg.bitLength.toNat ∧ 1 ≤ 1 ∧
    3 ≤ (engine 24 24 5 true).cfg.bitLength.toNat / 8 ∧ WritesSucceed (34 * 3) (engine 24 24 5 true) ∧
    AtRest (engine 24 24 5 true) ∧ DeviceKnown (engine 24 24 5 true) ∧ DeviceSized (engine 24 24 5 true) := by decide

/-- A chain longer than N and one shorter. -/
theorem witness_ShiftClearClearsDeclaredLengthOnly :
    (engine 8 16 5 true).constructed = true ∧ (engine 8 16 5 true).cfg.bitLength.toNat % 8 = 0 ∧
    0 < (engine 8 16 5 true).cfg.bitLength.toNat ∧
    WritesSucceed (34 * ((engine 8 16 5 true).cfg.bitLength.toNat / 8)) (engine 8 16 5 true) ∧
    AtRest (engine 8 16 5 true) ∧ DeviceKnown (engine 8 16 5 true) ∧ DeviceSized (engine 8 16 5 true) ∧
    DeviceKnown (engine 16 5 5 true) ∧ DeviceSized (engine 16 5 5 true) ∧ AtRest (engine 16 5 5 true) := by decide

/-- An engine whose outputs are disabled, as construction leaves it. -/
def disabled : State :=
  { engine 4 4 5 true with dev := { device 4 5 with outputs := [.z, .z, .z, .z] } }

theorem witness_OutputsStayDisabledUntilEnabled :
    DeviceKnown (newEngine ⟨0xF#4, 8#32⟩ State.reset) ∧ (0xF#4).getLsbD 3 = true ∧
    effect (construct ⟨0xF#4, 8#32⟩ State.reset) =
      some ([⟨.ser, false⟩, ⟨.lat, false⟩, ⟨.clk, false⟩, ⟨.oe, true⟩], some ⟨.ok, 0#32⟩) ∧
    effect (exec .latch disabled) = some (PULSE, some ⟨.ok, 0#32⟩) ∧ Instr.latch ≠ .enableOutput false ∧
    OutputsDisabled disabled ∧ OutputsDisabled (disabled.withFetchWord 16 0x4000) ∧
    decode 0x4000#16 ≠ .instr (.enableOutput false) ∧
    effect (step (disabled.withFetchWord 16 0x4000)) = some (PULSE, some ⟨.ok, 0#32⟩) := by decide

end Sys2Proof.Tests
end

section
/-! What a step is for each kind of move at the head of the host's list (00_scope R9, 60_exceptions R158, R166), and the
step on a word placed by `withFetchWord`. -/

namespace Sys2Proof.Machine

/-- Decoding undoes encoding: the family RoundTrip, collected over the instructions. -/
@[simp] theorem decode_encode (i : Instr) : decode (encode i) = .instr i := by
  cases i with
  | shiftBit value => exact Laws.RoundTrip.shiftBit value
  | shiftByte latch value => exact Laws.RoundTrip.shiftByte latch value
  | shiftClear => exact Laws.RoundTrip.shiftClear
  | latch => exact Laws.RoundTrip.latch
  | enableOutput value => exact Laws.RoundTrip.enableOutput value
  | getBitLength => exact Laws.RoundTrip.getBitLength

/-- The 16 bits of a command word, numbered as the opcode table numbers them, place that very word (log 4). -/
theorem withFetchWord_toNat (w : CmdWord) (s : State) : s.withFetchWord 16 w.toNat = placeCommand w s := by
  have hw : tableBits 16 w.toNat = w.toNat := Nat.mod_eq_of_lt w.isLt
  rw [State.withFetchWord, hw, BitVec.ofNat_toNat, BitVec.setWidth_eq]

section

variable {s : State} {rest : List HostMove}

theorem takeMove_of_pending {m : HostMove} (hp : s.pending = m :: rest) :
    takeMove s = { s with pending := rest } := by
  rw [takeMove, hp, List.tail_cons]

/-- A command word is taken, checked by the decoder and run, and then ended. -/
theorem step_of_command {w : CmdWord} (hp : s.pending = .command w :: rest) :
    step s = thenNext endCommand (runWord w { s with pending := rest }) := by
  simp only [step, hp, commandMove, takeMove_of_pending hp]

theorem step_of_construct {r : ConstructRecord} (hp : s.pending = .construct r :: rest) :
    step s = thenNext schedulerTick (construct r { s with pending := rest }) := by
  simp only [step, hp, constructMove, takeMove_of_pending hp]

end

theorem runWord_of_instr {w : CmdWord} {i : Instr} (hd : decode w = .instr i) (s : State) :
    runWord w s = exec i s := by
  simp only [runWord, hd]

theorem runWord_of_illegal {w : CmdWord} {why : IllegalReason} (hd : decode w = .illegal why) (s : State) :
    runWord w s = .next (respond .illegalCommand (w.setWidth 32) s) := by
  simp only [runWord, hd, raiseIllegal, raise]

/-- A placed word is the next move, and taking it gives back the state it was placed on. -/
theorem step_placeCommand (w : CmdWord) (s : State) :
    step (placeCommand w s) = thenNext endCommand (runWord w s) :=
  step_of_command (s := placeCommand w s) rfl

/-- Settles O9: the step at each kind of move, and the round trip for the placed word. -/
theorem stepRunsTheDecodedCommand : Obligations.StepRunsTheDecodedCommand := by
  refine ⟨fun s w rest hp => ⟨fun i hd => ?_, fun why hd => ?_⟩, fun s r rest hp => step_of_construct hp,
    fun s i => ?_⟩
  · rw [step_of_command hp, runWord_of_instr hd]
  · rw [step_of_command hp, runWord_of_illegal hd, thenNext]
  · rw [withFetchWord_toNat, step_placeCommand, runWord_of_instr (decode_encode i)]

end Sys2Proof.Machine
end

section
/-! How a command, a command word, a construction and a step end, each said once for any next state, and the induction over
a step: what every part of it keeps, it keeps (60_exceptions R158, R166). -/

namespace Sys2Proof.Machine

/-- Every command ends with one response after its writes, or after none; where it does not report a failed write, none
failed (60_exceptions R158). -/
theorem exec_ends (i : Instr) (s : State) :
    ∃ ws st d, exec i s = .next (respond st d (runWrites ws s).1) ∧ (ws = [] ∨ ws = commandWrites i s) ∧
      ((runWrites ws s).2 = none ∨ st = .lineWriteFailed) ∧ st ≠ .configMissingLine ∧ st ≠ .illegalCommand := by
  rcases exec_cases i s with ⟨-, h⟩ | ⟨-, -, -, h⟩ | ⟨-, -, h⟩
  · exact ⟨[], _, _, h, .inl rfl, .inl rfl, by decide, by decide⟩
  · exact ⟨[], _, _, h, .inl rfl, .inl rfl, by decide, by decide⟩
  · rcases endWrites_cases (successData i s) (runWrites (commandWrites i s) s) with ⟨hn, he⟩ | ⟨e, -, he⟩
    · exact ⟨_, _, _, h.trans he, .inr rfl, .inl hn, by decide, by decide⟩
    · exact ⟨_, _, _, h.trans he, .inr rfl, .inr rfl, by decide, by decide⟩

/-- Every command word, legal or not, is answered, and the host's list and position are left alone. -/
theorem runWord_answers (w : CmdWord) (s : State) :
    ∃ t, runWord w s = .next t ∧ t.hpc = s.hpc ∧ t.pending = s.pending := by
  cases hd : decode w with
  | instr i =>
    obtain ⟨ws, st, d, he, -⟩ := exec_ends i s
    exact ⟨_, (runWord_of_instr hd s).trans he, by simp, by simp⟩
  | illegal why => exact ⟨_, runWord_of_illegal hd s, by simp, by simp⟩

/-- What every construction leaves unchanged. -/
theorem construct_frame {r : ConstructRecord} {s t : State} (h : construct r s = .next t) :
    t.par = s.par ∧ t.hpc = s.hpc ∧ t.pending = s.pending := by
  rcases construct_next h with ⟨rfl, -⟩ | ⟨st, d, rfl, -⟩ <;> simp

/-- A construction that answers OK has set up the engine and carried out its writes. -/
theorem construct_ok {r : ConstructRecord} {s t : State} (h : construct r s = .next t)
    (hok : t.responses = s.responses ++ [⟨.ok, 0#32⟩]) :
    t = respond .ok 0#32 (runWrites (constructWrites (r.present.getLsbD 3)) (newEngine r s)).1 ∧
      (runWrites (constructWrites (r.present.getLsbD 3)) (newEngine r s)).2 = none := by
  rcases construct_next h with ⟨rfl, -⟩ | ⟨st, d, rfl, -, -, -, ⟨rfl, rfl, hn⟩ | rfl⟩
  · simp at hok
  · exact ⟨rfl, hn⟩
  · simp at hok

theorem thenNext_eq_next {f : State → State} {r : Result} {t : State} :
    thenNext f r = .next t ↔ ∃ u, r = .next u ∧ f u = t := by
  cases r <;> simp [thenNext]

/-- A next state of a step: the end of a command word, or of a construction. -/
theorem step_next {s t : State} (h : step s = .next t) :
    (∃ w rest u, s.pending = .command w :: rest ∧ runWord w { s with pending := rest } = .next u ∧ t = endCommand u) ∨
    (∃ r rest u, s.pending = .construct r :: rest ∧ construct r { s with pending := rest } = .next u ∧
      t = schedulerTick u) := by
  cases hp : s.pending with
  | nil => simp [step, hp, noMove] at h
  | cons m rest =>
    cases m with
    | command w =>
      rw [step_of_command hp, thenNext_eq_next] at h
      obtain ⟨u, hu, rfl⟩ := h
      exact .inl ⟨w, rest, u, rfl, hu, rfl⟩
    | construct r =>
      rw [step_of_construct hp, thenNext_eq_next] at h
      obtain ⟨u, hu, rfl⟩ := h
      exact .inr ⟨r, rest, u, rfl, hu, rfl⟩

/-- A property that every part of a step keeps. -/
structure KeptByParts (P : State → Prop) : Prop where
  write : ∀ e s, P s → P (lineWrite e s)
  response : ∀ st d s, P s → P (respond st d s)
  engine : ∀ r s, P s → P (newEngine r s)
  moves : ∀ (rest : List HostMove) (s : State), P s → P { s with pending := rest }
  position : ∀ s, P s → P (advanceHpc s)
  tick : ∀ s, P s → P (schedulerTick s)

section

variable {P : State → Prop} (hP : KeptByParts P) {s t : State}

include hP

theorem KeptByParts.after_runWord {w : CmdWord} (hs : P s) (h : runWord w s = .next t) : P t := by
  cases hd : decode w with
  | instr i =>
    obtain ⟨ws, st, d, he, -⟩ := exec_ends i s
    rw [runWord_of_instr hd, he] at h
    cases h
    exact hP.response _ _ _ (runWrites_keeps (fun e _ => hP.write e) hs)
  | illegal why =>
    rw [runWord_of_illegal hd] at h
    cases h
    exact hP.response _ _ _ hs

theorem KeptByParts.after_construct {r : ConstructRecord} (hs : P s) (h : construct r s = .next t) : P t := by
  rcases construct_next h with ⟨rfl, -⟩ | ⟨st, d, rfl, -⟩
  · exact hP.response _ _ _ hs
  · exact hP.response _ _ _ (runWrites_keeps (fun e _ => hP.write e) (hP.engine r s hs))

theorem KeptByParts.after_step (hs : P s) (h : step s = .next t) : P t := by
  rcases step_next h with ⟨w, rest, u, -, hu, rfl⟩ | ⟨r, rest, u, -, hu, rfl⟩
  · exact hP.tick _ (hP.position _ (hP.after_runWord (hP.moves rest s hs) hu))
  · exact hP.tick _ (hP.after_construct (hP.moves rest s hs) hu)

end

end Sys2Proof.Machine
end

section
/-! The rest levels of SER, CLK and LAT (10_state R36). -/

namespace Sys2Proof.Machine

theorem atRest_iff (s : State) : AtRest s ↔ ∀ l, l ≠ .oe → level s l = some false := by
  constructor
  · rintro ⟨hser, hclk, hlat⟩ l hl
    cases l with
    | ser => exact hser
    | clk => exact hclk
    | lat => exact hlat
    | oe => exact absurd rfl hl
  · intro h
    exact ⟨h .ser (by decide), h .clk (by decide), h .lat (by decide)⟩

theorem runWrites_none_of_cannotFail {s : State} (hf : s.par.lineWriteCanFail = false) (ws : List Event) :
    (runWrites ws s).2 = none := by
  rw [runWrites_succeeds (.inl hf)]

theorem level_runWrites_of_none {ws : List Event} {s : State} (h : (runWrites ws s).2 = none) (l : Line) :
    level (runWrites ws s).1 l = lastLevel l ws (level s l) := by
  obtain ⟨he, hl⟩ := runWrites_none h
  rw [he]
  exact hl l

/-- A construction whose writes do not fail brings the lines to rest, whatever their levels were. -/
theorem atRest_runWrites_construct {b : Bool} {s : State} (h : (runWrites (constructWrites b) s).2 = none) :
    AtRest (runWrites (constructWrites b) s).1 := by
  have hl := level_runWrites_of_none h
  have hc := fun v => constructWrites_levels b v
  exact ⟨(hl .ser).trans (hc _).1, (hl .clk).trans (hc _).2.1, (hl .lat).trans (hc _).2.2.1⟩

/-- From rest, a command that reports no failed write ends at rest. -/
theorem exec_atRest {i : Instr} {s t : State} (hs : AtRest s) (h : exec i s = .next t)
    (hok : s.par.lineWriteCanFail = false ∨ ∃ data, t.responses = s.responses ++ [⟨.ok, data⟩]) : AtRest t := by
  obtain ⟨ws, st, d, he, hws, hend, -⟩ := exec_ends i s
  rw [he] at h
  cases h
  have hn : (runWrites ws s).2 = none := by
    rcases hok with hf | ⟨data, hr⟩
    · exact runWrites_none_of_cannotFail hf ws
    · rcases hend with hn | rfl
      · exact hn
      · simp at hr
  rw [atRest_iff] at hs ⊢
  intro l hl
  rw [level_respond, level_runWrites_of_none hn, hs l hl]
  rcases hws with rfl | rfl
  · rfl
  · exact lastLevel_command i s l hl

/-- The mandatory lines of a constructed engine rest. -/
abbrev Rested (s : State) : Prop := s.constructed = true → AtRest s

theorem runWord_rested {w : CmdWord} {s t : State} (hf : s.par.lineWriteCanFail = false) (hs : Rested s)
    (h : runWord w s = .next t) : Rested t := by
  intro hc
  cases hd : decode w with
  | instr i =>
    rw [runWord_of_instr hd] at h
    obtain ⟨⟨-, hc', -⟩, -⟩ := exec_frame h
    exact exec_atRest (hs (hc' ▸ hc)) h (.inl hf)
  | illegal why =>
    rw [runWord_of_illegal hd] at h
    cases h
    exact hs hc

theorem construct_rested {r : ConstructRecord} {s t : State} (hf : s.par.lineWriteCanFail = false) (hs : Rested s)
    (h : construct r s = .next t) : Rested t := by
  rcases construct_next h with ⟨rfl, -⟩ | ⟨st, d, rfl, -⟩
  · exact hs
  · exact fun _ => atRest_runWrites_construct (runWrites_none_of_cannotFail (by simpa using hf) _)

/-- A scheduler tick changes no level. -/
theorem schedulerTick_rested {s : State} (hs : Rested s) : Rested (schedulerTick s) := by
  simpa [Rested, AtRest] using hs

theorem step_rested {s t : State} (hf : s.par.lineWriteCanFail = false) (hs : Rested s) (h : step s = .next t) :
    Rested t := by
  rcases step_next h with ⟨w, rest, u, -, hu, rfl⟩ | ⟨r, rest, u, -, hu, rfl⟩
  · have hu' : Rested u := runWord_rested (s := { s with pending := rest }) hf hs hu
    exact schedulerTick_rested (s := advanceHpc u) hu'
  · exact schedulerTick_rested (construct_rested (s := { s with pending := rest }) hf hs hu)

/-- Settles O41: where no write fails a command's writes start and end at rest, and a construction's end at rest from
anywhere. -/
theorem restLevelsHoldBetweenCommands : Obligations.RestLevelsHoldBetweenCommands := by
  refine ⟨fun s t hf hs h => step_rested hf hs h, fun r s t h hok => ?_, fun i s t data hs h hok =>
    exec_atRest hs h (.inr ⟨data, hok⟩)⟩
  obtain ⟨rfl, hn⟩ := construct_ok h hok
  exact atRest_runWrites_construct hn

end Sys2Proof.Machine
end

section
/-! The part of the machine's invariant that every single line write and every scheduler tick keeps, and the part about the
engine, which only a construction changes. -/

namespace Sys2Proof.Machine

/-! ## Pins and the queue (40_output_line R93) -/

/-- The pin of a line of polarity `activeHigh` after the writes `qs` have landed. -/
def pinAfter (l : Line) (activeHigh : Bool) (qs : List QueuedWrite) (pin : Option Bool) : Option Bool :=
  qs.foldl (fun v q => if q.line = l then some (physLevel activeHigh q.level) else v) pin

theorem pinAfter_append (l : Line) (a : Bool) (qs rs : List QueuedWrite) (pin : Option Bool) :
    pinAfter l a (qs ++ rs) pin = pinAfter l a rs (pinAfter l a qs pin) := by
  simp [pinAfter, List.foldl_append]

/-- Writes that do not name the line leave its pin. -/
theorem pinAfter_of_filter_nil {l : Line} {qs : List QueuedWrite} (h : qs.filter (fun q => q.line = l) = []) (a : Bool)
    (pin : Option Bool) : pinAfter l a qs pin = pin := by
  induction qs with
  | nil => rfl
  | cons q qs ih =>
    by_cases hq : q.line = l
    · simp [hq] at h
    · rw [List.filter_cons_of_neg (by simpa using hq)] at h
      simpa [pinAfter, hq] using ih h

theorem drained_pin (s : State) (l : Line) :
    ((drained s).line.get l).pin = pinAfter l (s.line.get l).activeHigh s.queue (s.line.get l).pin :=
  landAll_pin s.queue s l

theorem phys_lineWrite (e : Event) (s : State) (l : Line) : phys (lineWrite e s) l =
    if l = e.line then some (physLevel (s.line.get l).activeHigh (writtenLevel e.value s)) else phys s l := by
  simp only [phys, level_lineWrite, lineWrite_activeHigh]
  split <;> rfl

theorem phys_schedulerTick (s : State) (l : Line) : phys (schedulerTick s) l = phys s l := by simp [phys]

/-- A tick lands the oldest queued writes, none of them where writes are not deferred. -/
theorem schedulerTick_lands (s : State) : ∃ n, (schedulerTick s).queue = s.queue.drop n ∧
    ∀ l, ((schedulerTick s).line.get l).pin =
      pinAfter l (s.line.get l).activeHigh (s.queue.take n) (s.line.get l).pin := by
  cases hd : s.par.ioDeferred with
  | false => exact ⟨0, by simp [schedulerTick, hd], fun l => by simp [schedulerTick, hd, pinAfter]⟩
  | true =>
    refine ⟨s.ticks.headD 0, by simp [schedulerTick, hd, landQueued], fun l => ?_⟩
    simp only [schedulerTick, hd, landQueued, if_true]
    exact landAll_pin _ _ l

/-- What the queue will make of a pin does not depend on how much of it a tick has landed. -/
theorem drained_pin_schedulerTick (s : State) (l : Line) :
    ((drained (schedulerTick s)).line.get l).pin = ((drained s).line.get l).pin := by
  obtain ⟨n, hq, hpin⟩ := schedulerTick_lands s
  rw [drained_pin, drained_pin, schedulerTick_activeHigh, hq, hpin, ← pinAfter_append, List.take_append_drop]

theorem runWrites_singleton (e : Event) (s : State) : (runWrites [e] s).1 = lineWrite e s := by
  simp only [runWrites]
  split <;> rfl

/-- A write to a hardware line decides what its pin will be, and no other line's. -/
theorem drained_pin_lineWrite {e : Event} {s : State} (hq : s.par.ioDeferred = false → s.queue = []) {l : Line}
    (hv : (s.line.get l).variant = .hardware) : ((drained (lineWrite e s)).line.get l).pin =
      if l = e.line then some (physLevel (s.line.get l).activeHigh (writtenLevel e.value s))
      else ((drained s).line.get l).pin := by
  simp only [drained_pin, lineWrite_activeHigh, lineWrite_queue, lineWrite_pin]
  by_cases hl : l = e.line
  · subst hl
    cases hd : s.par.ioDeferred with
    | false => simp [hv, hq hd, pinAfter]
    | true => simp [hv, pinAfter]
  · have hne : ¬ e.line = l := fun h => hl h.symm
    simp only [hl, and_false, if_false]
    split
    · simp [pinAfter, hne]
    · rfl

/-! ## What every write and every tick keeps -/

theorem lastWrite_append (l : Line) (trace : List Event) (e : Event) :
    lastWrite l (trace ++ [e]) = if e.line = l then some e.value else lastWrite l trace := by
  simp [lastWrite, List.foldl_append]

/-- The clauses of `StateInv` about the lines, the queue and the device. -/
structure LineInv (s : State) : Prop where
  sized : DeviceSized s
  levels : s.par.lineWriteCanFail = false → ∀ l, level s l = lastWrite l s.trace
  pins : ∀ l, (s.line.get l).variant = .hardware → ((drained s).line.get l).pin = phys s l
  fakes : ∀ l, (s.line.get l).variant = .recordingFake →
    (s.line.get l).pin = none ∧ s.queue.filter (fun q => q.line = l) = []
  direct : s.par.ioDeferred = false → s.queue = []

theorem lineInv_lineWrite (e : Event) {s : State} (h : LineInv s) : LineInv (lineWrite e s) where
  sized := deviceSized_lineWrite e h.sized
  levels := by
    intro hf l
    rw [lineWrite_par] at hf
    rw [level_lineWrite, writtenLevel_succeeds (writeFails_false (n := 0) (.inl hf)), lineWrite_trace,
      lastWrite_append, h.levels hf]
    simp only [eq_comm]
  pins := by
    intro l hv
    rw [lineWrite_variant] at hv
    rw [drained_pin_lineWrite h.direct hv, phys_lineWrite, h.pins l hv]
  fakes := by
    intro l hv
    rw [lineWrite_variant] at hv
    rw [← runWrites_singleton, (runWrites_fake hv [e]).1, (runWrites_fake hv [e]).2]
    exact h.fakes l hv
  direct := by
    intro hd
    rw [lineWrite_par] at hd
    rw [← runWrites_singleton, runWrites_queue_direct hd, h.direct hd]

theorem lineInv_schedulerTick {s : State} (h : LineInv s) : LineInv (schedulerTick s) := by
  obtain ⟨n, hq, hpin⟩ := schedulerTick_lands s
  exact
    { sized := by simpa [DeviceSized] using h.sized
      levels := by simpa using h.levels
      pins := by
        intro l hv
        rw [schedulerTick_variant] at hv
        rw [drained_pin_schedulerTick, phys_schedulerTick, h.pins l hv]
      fakes := by
        intro l hv
        rw [schedulerTick_variant] at hv
        obtain ⟨hp, hf⟩ := h.fakes l hv
        rw [← List.take_append_drop n s.queue, List.filter_append, List.append_eq_nil_iff] at hf
        rw [hpin, hq, pinAfter_of_filter_nil hf.1]
        exact ⟨hp, hf.2⟩
      direct := by
        intro hd
        rw [schedulerTick_par] at hd
        rw [hq, h.direct hd, List.drop_nil] }

/-- `LineInv` reads nothing but the parameters, the lines, the trace, the queue and the device. -/
theorem lineInv_congr {s t : State} (h : LineInv s) (hp : t.par = s.par) (hl : t.line = s.line)
    (ht : t.trace = s.trace) (hq : t.queue = s.queue) (hd : t.dev = s.dev) : LineInv t where
  sized := by
    rw [DeviceSized, hp, hd]
    exact h.sized
  levels := by
    rw [hp, ht]
    simpa only [level, hl] using h.levels
  pins := by
    simpa only [drained_pin, phys, level, hl, hq] using h.pins
  fakes := by
    rw [hl, hq]
    exact h.fakes
  direct := by
    rw [hp, hq]
    exact h.direct

theorem lineInv_keptByParts : KeptByParts LineInv where
  write := fun e _ h => lineInv_lineWrite e h
  response := fun _ _ _ h => lineInv_congr h rfl rfl rfl rfl rfl
  engine := fun _ _ h => lineInv_congr h rfl rfl rfl rfl rfl
  moves := fun _ _ h => lineInv_congr h rfl rfl rfl rfl rfl
  position := fun _ h => lineInv_congr h rfl rfl rfl rfl rfl
  tick := fun _ h => lineInv_schedulerTick h

/-! ## The configuration of a constructed engine (10_state R22, R23) -/

/-- The clauses of `StateInv` about the engine. -/
abbrev EngineInv (s : State) : Prop := s.constructed = true →
  (s.cfg.present.ser = true ∧ s.cfg.present.clk = true ∧ s.cfg.present.lat = true) ∧
    1 ≤ s.cfg.bitLength.toNat ∧ s.cfg.bitLength.toNat ≤ s.par.bitLengthMax.toNat

theorem runWord_engineInv {w : CmdWord} {s t : State} (hs : EngineInv s) (h : runWord w s = .next t) : EngineInv t := by
  cases hd : decode w with
  | instr i =>
    rw [runWord_of_instr hd] at h
    obtain ⟨⟨hp, hc, hcfg, -⟩, -⟩ := exec_frame h
    rw [EngineInv, hp, hc, hcfg]
    exact hs
  | illegal why =>
    rw [runWord_of_illegal hd] at h
    cases h
    exact hs

/-- A construction sets up an engine only from a record with the mandatory lines and a length in range. -/
theorem construct_engineInv {r : ConstructRecord} {s t : State} (hs : EngineInv s) (h : construct r s = .next t) :
    EngineInv t := by
  rcases construct_next h with ⟨rfl, -⟩ | ⟨st, d, rfl, hm, hmin, hmax, -⟩
  · exact hs
  · intro _
    simpa [presentLines] using ⟨(missingMask_eq_zero _).1 hm, hmin, hmax⟩

theorem step_engineInv {s t : State} (hs : EngineInv s) (h : step s = .next t) : EngineInv t := by
  rcases step_next h with ⟨w, rest, u, -, hu, rfl⟩ | ⟨r, rest, u, -, hu, rfl⟩
  · simpa [EngineInv, endCommand] using runWord_engineInv (s := { s with pending := rest }) hs hu
  · simpa [EngineInv] using construct_engineInv (s := { s with pending := rest }) hs hu

/-! ## The whole invariant -/

theorem stateInv_iff (s : State) : StateInv s ↔
    EngineInv s ∧ LineInv s ∧ (s.par.lineWriteCanFail = false → Rested s) := by
  constructor
  · rintro ⟨hm, hn, hsized, hlevels, hrest, hpins, hfakes, hdirect⟩
    exact ⟨fun hc => ⟨hm hc, hn hc⟩, ⟨hsized, hlevels, hpins, hfakes, hdirect⟩, hrest⟩
  · rintro ⟨he, ⟨hsized, hlevels, hpins, hfakes, hdirect⟩, hrest⟩
    exact ⟨fun hc => (he hc).1, fun hc => (he hc).2, hsized, hlevels, hrest, hpins, hfakes, hdirect⟩

/-- Settles O46: the clauses about the lines are kept write by write and tick by tick, those about the engine by
construction alone, and the rest levels command by command. -/
theorem stepKeepsTheInvariant : Obligations.StepKeepsTheInvariant := by
  intro s t hs h
  rw [stateInv_iff] at hs ⊢
  obtain ⟨hengine, hlines, hrest⟩ := hs
  refine ⟨step_engineInv hengine h, lineInv_keptByParts.after_step hlines h, fun hf => ?_⟩
  rw [(step_keeps_wiring h).1] at hf
  exact step_rested hf (hrest hf) h

end Sys2Proof.Machine
end

section
/-! The host's position, the trace, the OE line, the responses, and the physical level. -/

namespace Sys2Proof.Machine

/-- Settles O10: every command word is answered and ends with `advanceHpc`, and nothing else moves the position. -/
theorem hostPositionAdvancesOncePerCommand : Obligations.HostPositionAdvancesOncePerCommand := by
  refine ⟨rfl, fun s hp => ?_, fun s w rest hp => ?_, fun s t r rest hp h => ?_, fun i s t h => ?_⟩
  · simp only [step, hp, noMove]
  · obtain ⟨t, ht, hpc, hpend⟩ := runWord_answers w { s with pending := rest }
    refine ⟨endCommand t, by rw [step_of_command hp, ht, thenNext], ?_, ?_⟩
    · simp [endCommand, hpc]
    · simp [endCommand, hpend]
  · rw [step_of_construct hp, thenNext_eq_next] at h
    obtain ⟨u, hu, rfl⟩ := h
    obtain ⟨-, hpc, hpend⟩ := construct_frame hu
    exact ⟨by simp [hpc], by simp [hpend]⟩
  · obtain ⟨⟨-, -, -, hpend, hpc, -⟩, -⟩ := exec_frame h
    exact ⟨hpc, hpend⟩

theorem startsWithTrace_keptByParts (tr : List Event) : KeptByParts (fun t => tr <+: t.trace) where
  write := fun e s h => by
    rw [lineWrite_trace]
    exact h.trans (List.prefix_append _ _)
  response := fun _ _ _ h => h
  engine := fun _ _ h => h
  moves := fun _ _ h => h
  position := fun _ h => h
  tick := fun s h => by rwa [schedulerTick_trace]

/-- Settles O16: a write appends its event, and every part of a step keeps the old trace in front. -/
theorem traceOnlyGrows : Obligations.TraceOnlyGrows := by
  refine ⟨lineWrite_trace, fun s t h => ?_, rfl⟩
  obtain ⟨es, he⟩ := (startsWithTrace_keptByParts s.trace).after_step (List.prefix_refl s.trace) h
  exact ⟨es, he.symm⟩

/-- Only ENABLE_OUTPUT on an engine with OE present writes OE. -/
theorem commandWrites_oe {i : Instr} {s : State} {e : Event} (h : e ∈ commandWrites i s) (he : e.line = .oe) :
    ∃ value, i = .enableOutput value ∧ s.cfg.present.oe = true := by
  cases i with
  | shiftBit value => exact absurd he (bitWrites_mem h).1
  | shiftByte latch value => exact absurd he (byteWrites_mem h).1
  | shiftClear => exact absurd he (clearWrites_mem h)
  | latch =>
    simp only [commandWrites, pulseLat, List.mem_cons, List.not_mem_nil, or_false] at h
    rcases h with rfl | rfl <;> cases he
  | enableOutput value =>
    refine ⟨value, rfl, ?_⟩
    by_contra hp
    simp [commandWrites, enableWrites, hp] at h
  | getBitLength => simp [commandWrites] at h

theorem exec_changes_oe {i : Instr} {s t : State} (h : exec i s = .next t) (hne : t.line.oe ≠ s.line.oe) :
    ∃ value, i = .enableOutput value ∧ s.cfg.present.oe = true := by
  obtain ⟨-, hother, -⟩ := exec_frame h
  by_contra hno
  exact hne (hother .oe fun e he hl => hno (commandWrites_oe he hl.symm))

/-- Settles O42: OE is the last write of a construction that has it, and among the commands ENABLE_OUTPUT alone names it. -/
theorem onlyEnableOutputChangesOe : Obligations.OnlyEnableOutputChangesOe := by
  refine ⟨fun r s t h hok hoe => ?_, fun i s t h hne => exec_changes_oe h hne, fun s t w rest hp h hne => ?_⟩
  · obtain ⟨rfl, hn⟩ := construct_ok h hok
    obtain ⟨-, -, -, hlast⟩ := constructWrites_levels (r.present.getLsbD 3) (level (newEngine r s) .oe)
    rw [level_respond, level_runWrites_of_none hn, lastLevel, hlast, hoe, if_pos rfl]
  · rw [step_of_command hp, thenNext_eq_next] at h
    obtain ⟨u, hu, rfl⟩ := h
    have hlevel : level u .oe ≠ level s .oe := by simpa [endCommand] using hne
    cases hd : decode w with
    | instr i =>
      rw [runWord_of_instr hd] at hu
      have hline : u.line.oe ≠ s.line.oe := fun he => hlevel (congrArg LineState.lvl he)
      obtain ⟨value, rfl, -⟩ := exec_changes_oe hu hline
      exact ⟨value, rfl⟩
    | illegal why =>
      rw [runWord_of_illegal hd] at hu
      cases hu
      exact absurd rfl hlevel

/-- Settles O44, by the ways a command ends. -/
theorem everyCommandAnswersOnce : Obligations.EveryCommandAnswersOnce := by
  intro i s
  obtain ⟨ws, st, d, he, -, -, hmissing, hillegal⟩ := exec_ends i s
  exact ⟨_, ⟨st, d⟩, he, by simp, hmissing, hillegal⟩

/-- Settles O14, at an unknown level and at a known one. -/
theorem physicalLevelIsLevelXorNotActiveHigh : Obligations.PhysicalLevelIsLevelXorNotActiveHigh := by
  intro s l
  constructor
  · intro h
    rw [phys, h, Option.map_none]
  · intro v h
    rw [phys, h, Option.map_some, physLevel]

end Sys2Proof.Machine
end

section
/-! The engine reads neither a line nor the device: two runs from states that agree on what the engine uses
(20_memory R59); and a write of the level a line already holds (20_memory R58). -/

namespace Sys2Proof.Machine

/-- What a command's answer can depend on: the engine's existence, its configuration, and the reports to its writes. -/
structure EngineAgrees (s u : State) : Prop where
  constructed : s.constructed = u.constructed
  cfg : s.cfg = u.cfg
  canFail : s.par.lineWriteCanFail = u.par.lineWriteCanFail
  reports : s.lineReports = u.lineReports

/-- From `s` and `u`, the results `a` and `b` carry the same response and the same writes, and leave states that agree
again. -/
def AnswersAlike (s u : State) (a b : Result) : Prop :=
  ∃ s' u' r es, a = .next s' ∧ b = .next u' ∧
    s'.responses = s.responses ++ [r] ∧ u'.responses = u.responses ++ [r] ∧
    s'.trace = s.trace ++ es ∧ u'.trace = u.trace ++ es ∧
    s'.constructed = u'.constructed ∧ s'.cfg = u'.cfg ∧ s'.lineReports = u'.lineReports

section

variable {s u : State}

/-- The same writes and then the same response: both runs issue the same part of the list. -/
theorem respond_runWrites_alike (h : EngineAgrees s u) (ws : List Event) (status : Status) (data : Data) :
    AnswersAlike s u (.next (respond status data (runWrites ws s).1))
      (.next (respond status data (runWrites ws u).1)) := by
  obtain ⟨-, hreports, es, hs, hu⟩ := runWrites_agree ws h.canFail h.reports
  exact ⟨_, _, ⟨status, data⟩, es, rfl, rfl, by simp, by simp, hs, hu, by simp [h.constructed], by simp [h.cfg],
    hreports⟩

/-- A response without a write. -/
theorem respond_alike (h : EngineAgrees s u) (status : Status) (data : Data) :
    AnswersAlike s u (.next (respond status data s)) (.next (respond status data u)) :=
  respond_runWrites_alike h [] status data

/-- Both runs stop at the same failing write, or at none, so they end with the same response. -/
theorem endWrites_alike (h : EngineAgrees s u) (data : Data) (ws : List Event) :
    AnswersAlike s u (endWrites data (runWrites ws s)) (endWrites data (runWrites ws u)) := by
  obtain ⟨hfail, -⟩ := runWrites_agree ws h.canFail h.reports
  rw [endWrites, endWrites, hfail]
  cases (runWrites ws u).2 with
  | none => exact respond_runWrites_alike h ws _ _
  | some e => exact respond_runWrites_alike h ws _ _

/-- A command's writes are decided by the configuration. -/
theorem commandWrites_congr (i : Instr) (h : s.cfg = u.cfg) : commandWrites i s = commandWrites i u := by
  cases i <;> simp only [commandWrites, h]

/-- By the three ways a command ends: the checks have the same outcome in both states. -/
theorem exec_alike (h : EngineAgrees s u) (i : Instr) : AnswersAlike s u (exec i s) (exec i u) := by
  rcases exec_cases i s with ⟨hc, hs⟩ | ⟨hc, hp, rfl, hs⟩ | ⟨hc, hp, hs⟩ <;> rw [h.constructed] at hc
  · rw [hs, exec_not_constructed hc]
    exact respond_alike h _ _
  · have hmis : u.cfg.bitLength.toNat % 8 ≠ 0 := by simpa [h.cfg] using hp
    rw [hs, exec_clear_misaligned hc hmis, h.cfg]
    exact respond_alike h _ _
  · have hpre : Precondition i u := by simpa only [Precondition, h.cfg] using hp
    have hdata : successData i s = successData i u := by simp only [successData, h.cfg]
    rw [hs, exec_runs hc hpre, commandWrites_congr i h.cfg, hdata]
    exact endWrites_alike h _ _

/-- The engines one record constructs agree, whatever was configured before. -/
theorem newEngine_agrees (h : EngineAgrees s u) (c : ConstructRecord) :
    EngineAgrees (newEngine c s) (newEngine c u) where
  constructed := rfl
  cfg := rfl
  canFail := h.canFail
  reports := h.reports

/-- The checks of a construction read the record and BIT_LENGTH_MAX alone; setting up the engine leaves the responses
and the trace as they were. -/
theorem construct_alike (h : EngineAgrees s u) (hmax : s.par.bitLengthMax = u.par.bitLengthMax) (c : ConstructRecord) :
    (construct c s = .refused .bitLengthOutOfRange ∧ construct c u = .refused .bitLengthOutOfRange) ∨
      AnswersAlike s u (construct c s) (construct c u) := by
  simp only [construct, hmax]
  split
  · split
    · exact .inr (endWrites_alike (newEngine_agrees h c) 0#32 _)
    · exact .inr (respond_alike h _ _)
  · exact .inl ⟨rfl, rfl⟩

end

/-- Settles O43: a command and a construction, each run from two states that agree. -/
theorem engineNeverReadsLinesOrDevice : Obligations.EngineNeverReadsLinesOrDevice :=
  ⟨fun i _ _ hc hcfg hf hr => exec_alike ⟨hc, hcfg, hf, hr⟩ i,
    fun c _ _ hc hcfg hmax hf hr => construct_alike ⟨hc, hcfg, hf, hr⟩ hmax c⟩

/-- Settles O13: the write appends one event, and sets the line to the level it already has. -/
theorem sameLevelWriteStillAppends : Obligations.SameLevelWriteStillAppends := by
  refine ⟨lineWrite_trace, fun e s hf hl => ⟨fun l => ?_, ?_⟩⟩
  · rw [level_lineWrite, writtenLevel_succeeds hf]
    split
    · next he => rw [he, hl]
    · rfl
  · rw [lineWrite_trace]
    simp

end Sys2Proof.Machine
end

section
/-! The decoder read backwards: a word that decodes to a command is that command's encoding (30_encoding R70 to R73). -/

namespace Sys2Proof

theorem decodeN_eq_instr {w : CmdWord} {i j : Instr} :
    decodeN w i = .instr j ↔ (flagField w = false ∧ immField w = 0#8) ∧ i = j := by
  rw [decodeN]
  split
  · next h => simp [h]
  · next h => simp [h]

theorem decodeN_eq_illegal {w : CmdWord} {i : Instr} {why : IllegalReason} (h : decodeN w i = .illegal why) :
    ¬ (flagField w = false ∧ immField w = 0#8) := fun hz => by
  rw [decodeN, if_pos hz] at h
  cases h

theorem decodeF_eq_instr {w : CmdWord} {f : Bool → Instr} {j : Instr} :
    decodeF w f = .instr j ↔ immField w = 0#8 ∧ f (flagField w) = j := by
  rw [decodeF]
  split
  · next h => simp [h]
  · next h => simp [h]

theorem decodeF_eq_illegal {w : CmdWord} {f : Bool → Instr} {why : IllegalReason} (h : decodeF w f = .illegal why) :
    immField w ≠ 0#8 := fun hz => by
  rw [decodeF, if_pos hz] at h
  cases h

theorem decode_eq_instr {w : CmdWord} {i : Instr} :
    decode w = .instr i ↔ rsvField w = 0#3 ∧ decodeOp w = .instr i := by
  rw [decode]
  split
  · next h => simp [h]
  · next h => simp [h]

/-- A word is `{OP, 000, F, IMM8}` exactly when its fields are these. -/
theorem commandWord_eq_iff {w : CmdWord} {op : BitVec 4} {flag : Bool} {imm : Byte} :
    commandWord op flag imm = w ↔ opField w = op ∧ rsvField w = 0#3 ∧ flagField w = flag ∧ immField w = imm := by
  rw [eq_comm, commandWord_eq, ← fieldsWord_inj, fieldsWord_of_fields]

section

variable {w : CmdWord} {op : BitVec 4}

/-- A command of format N is read only from the word that is its opcode and zeros. -/
theorem commandWord_of_decodeN {i j : Instr} (hrsv : rsvField w = 0#3) (hop : (opField w).toNat = op.toNat)
    (h : decodeN w i = .instr j) : i = j ∧ commandWord op false 0#8 = w := by
  obtain ⟨⟨hflag, himm⟩, hij⟩ := decodeN_eq_instr.mp h
  exact ⟨hij, commandWord_eq_iff.mpr ⟨BitVec.eq_of_toNat_eq hop, hrsv, hflag, himm⟩⟩

/-- A command of format F is read only from the word that is its opcode, its operand and zeros. -/
theorem commandWord_of_decodeF {f : Bool → Instr} {j : Instr} (hrsv : rsvField w = 0#3)
    (hop : (opField w).toNat = op.toNat) (h : decodeF w f = .instr j) :
    f (flagField w) = j ∧ commandWord op (flagField w) 0#8 = w := by
  obtain ⟨himm, hj⟩ := decodeF_eq_instr.mp h
  exact ⟨hj, commandWord_eq_iff.mpr ⟨BitVec.eq_of_toNat_eq hop, hrsv, rfl, himm⟩⟩

end

/-- One case per row of the opcode map: the decoder has checked every field that the encoder writes. -/
theorem encode_of_decode {w : CmdWord} {i : Instr} (h : decode w = .instr i) : encode i = w := by
  obtain ⟨hrsv, h⟩ := decode_eq_instr.mp h
  unfold decodeOp at h
  split at h
  case h_1 hop =>
    obtain ⟨rfl, hw⟩ := commandWord_of_decodeF (op := 0x1#4) hrsv hop h
    exact hw
  case h_2 hop =>
    cases h
    exact commandWord_eq_iff.mpr ⟨BitVec.eq_of_toNat_eq hop, hrsv, rfl, rfl⟩
  case h_3 hop =>
    obtain ⟨rfl, hw⟩ := commandWord_of_decodeN (op := 0x3#4) hrsv hop h
    exact hw
  case h_4 hop =>
    obtain ⟨rfl, hw⟩ := commandWord_of_decodeN (op := 0x4#4) hrsv hop h
    exact hw
  case h_5 hop =>
    obtain ⟨rfl, hw⟩ := commandWord_of_decodeF (op := 0x5#4) hrsv hop h
    exact hw
  case h_6 hop =>
    obtain ⟨rfl, hw⟩ := commandWord_of_decodeN (op := 0x6#4) hrsv hop h
    exact hw
  case h_7 => cases h

/-- The decoder gives a command on its encoding and on no other word. -/
theorem decode_eq_instr_iff_encode {w : CmdWord} {i : Instr} : decode w = .instr i ↔ encode i = w :=
  ⟨encode_of_decode, fun h => h ▸ Machine.decode_encode i⟩

/-- Settles O4: the family RoundTrip one way, the decoder read backwards the other. -/
theorem decodeInvertsEncode : Obligations.DecodeInvertsEncode :=
  ⟨Machine.decode_encode, fun _ _ => encode_of_decode⟩

end Sys2Proof
end

section
/-! The rows of the opcode map as masks (30_encoding R72), the illegal words (R74), and that every word is one or the
other (R75). -/

namespace Sys2Proof.Machine

/-! ## Masks on the fields of a word -/

/-- Masking a word acts field by field, and the result is compared field by field. -/
theorem and_fieldsWord_eq_commandWord {w : CmdWord} {op mop : BitVec 4} {mrsv : BitVec 3} {mflag : Bool} {mimm : Byte} :
    w &&& fieldsWord mop mrsv mflag mimm = commandWord op false 0#8 ↔
      opField w &&& mop = op ∧ rsvField w &&& mrsv = 0#3 ∧ (flagField w && mflag) = false ∧ immField w &&& mimm = 0#8 := by
  conv_lhs => rw [← fieldsWord_of_fields w]
  rw [fieldsWord_and, commandWord_eq, fieldsWord_inj]

/-- The mask of format F leaves out F alone. -/
theorem and_maskF {w : CmdWord} {op : BitVec 4} :
    w &&& 0xFEFF#16 = commandWord op false 0#8 ↔ opField w = op ∧ rsvField w = 0#3 ∧ immField w = 0#8 := by
  rw [show 0xFEFF#16 = fieldsWord (BitVec.allOnes 4) (BitVec.allOnes 3) false (BitVec.allOnes 8) by decide,
    and_fieldsWord_eq_commandWord]
  simp only [BitVec.and_allOnes, Bool.and_false, true_and]

/-- The mask of `SHIFT_BYTE` leaves out F and IMM8. -/
theorem and_maskByte {w : CmdWord} {op : BitVec 4} :
    w &&& 0xFE00#16 = commandWord op false 0#8 ↔ opField w = op ∧ rsvField w = 0#3 := by
  rw [show 0xFE00#16 = fieldsWord (BitVec.allOnes 4) (BitVec.allOnes 3) false 0#8 by decide,
    and_fieldsWord_eq_commandWord]
  simp only [BitVec.and_allOnes, Bool.and_false, BitVec.and_zero, and_true]

/-- The mask of format N leaves out nothing. -/
theorem and_maskN (w : CmdWord) : w &&& 0xFFFF#16 = w := BitVec.and_allOnes

/-! ## The opcode map -/

theorem decode_eq_shiftBit {w : CmdWord} {value : Bool} :
    decode w = .instr (.shiftBit value) ↔ w &&& 0xFEFF#16 = 0x1000#16 ∧ w.getLsbD 8 = value := by
  rw [decode_eq_instr_iff_encode, encode, commandWord_eq_iff, show 0x1000#16 = commandWord 0x1#4 false 0#8 by decide,
    and_maskF, flagField]
  tauto

theorem decode_eq_shiftByte {w : CmdWord} {latch : Bool} {value : Byte} :
    decode w = .instr (.shiftByte latch value) ↔
      w &&& 0xFE00#16 = 0x2000#16 ∧ w.getLsbD 8 = latch ∧ w.extractLsb' 0 8 = value := by
  rw [decode_eq_instr_iff_encode, encode, commandWord_eq_iff, show 0x2000#16 = commandWord 0x2#4 false 0#8 by decide,
    and_maskByte, flagField, immField]
  tauto

theorem decode_eq_shiftClear {w : CmdWord} : decode w = .instr .shiftClear ↔ w &&& 0xFFFF#16 = 0x3000#16 := by
  rw [decode_eq_instr_iff_encode, and_maskN, eq_comm]
  rfl

theorem decode_eq_latch {w : CmdWord} : decode w = .instr .latch ↔ w &&& 0xFFFF#16 = 0x4000#16 := by
  rw [decode_eq_instr_iff_encode, and_maskN, eq_comm]
  rfl

theorem decode_eq_enableOutput {w : CmdWord} {value : Bool} :
    decode w = .instr (.enableOutput value) ↔ w &&& 0xFEFF#16 = 0x5000#16 ∧ w.getLsbD 8 = value := by
  rw [decode_eq_instr_iff_encode, encode, commandWord_eq_iff, show 0x5000#16 = commandWord 0x5#4 false 0#8 by decide,
    and_maskF, flagField]
  tauto

theorem decode_eq_getBitLength {w : CmdWord} : decode w = .instr .getBitLength ↔ w &&& 0xFFFF#16 = 0x6000#16 := by
  rw [decode_eq_instr_iff_encode, and_maskN, eq_comm]
  rfl

/-- Settles O2: a word decodes to a command exactly when it is its encoding, and the row's mask compares the fields. -/
theorem opcodeMapGivesEachCommand : Obligations.OpcodeMapGivesEachCommand := fun _ =>
  ⟨fun _ => decode_eq_shiftBit, fun _ _ => decode_eq_shiftByte, decode_eq_shiftClear, decode_eq_latch,
    fun _ => decode_eq_enableOutput, decode_eq_getBitLength⟩

/-! ## Illegal words (30_encoding R74) -/

theorem toNat_div_4096 (w : CmdWord) : w.toNat / 4096 = (opField w).toNat := by
  have hw := w.isLt
  simp only [opField, BitVec.extractLsb'_toNat, Nat.shiftRight_eq_div_pow]
  omega

theorem toNat_div_512_mod (w : CmdWord) : w.toNat / 512 % 8 = (rsvField w).toNat := by
  simp only [rsvField, BitVec.extractLsb'_toNat, Nat.shiftRight_eq_div_pow, Nat.reducePow]

theorem toNat_div_256_mod (w : CmdWord) : w.toNat / 256 % 2 = (flagField w).toNat := by
  rw [flagField, BitVec.getLsbD, Nat.toNat_testBit]

theorem toNat_mod_256 (w : CmdWord) : w.toNat % 256 = (immField w).toNat := by
  simp only [immField, BitVec.extractLsb'_toNat, Nat.shiftRight_zero, Nat.reducePow]

/-- The three cases of R74 on the fields of the word. -/
theorem illegalWord_iff {w : CmdWord} :
    IllegalWord w ↔
      ((opField w).toNat = 0 ∨ 7 ≤ (opField w).toNat) ∨ rsvField w ≠ 0#3 ∨
      ((opField w).toNat ∈ formatN ∧ ¬ (flagField w = false ∧ immField w = 0#8)) ∨
      ((opField w).toNat ∈ formatF ∧ immField w ≠ 0#8) := by
  have rsv_zero : (rsvField w).toNat = 0 ↔ rsvField w = 0#3 := BitVec.toNat_inj (y := 0#3)
  have imm_zero : (immField w).toNat = 0 ↔ immField w = 0#8 := BitVec.toNat_inj (y := 0#8)
  rw [IllegalWord, toNat_div_4096, toNat_div_512_mod, toNat_div_256_mod, toNat_mod_256]
  simp only [ne_eq, rsv_zero, imm_zero, Bool.toNat_eq_zero, not_and_or]

/-- Each way the decoder rejects a word is one of the three cases. -/
theorem illegalWord_of_decode_illegal {w : CmdWord} {why : IllegalReason} (h : decode w = .illegal why) :
    IllegalWord w := by
  rw [illegalWord_iff]
  by_cases hrsv : rsvField w = 0#3
  case neg => exact .inr (.inl hrsv)
  rw [decode, if_pos hrsv] at h
  unfold decodeOp at h
  split at h
  case h_1 hop => exact .inr (.inr (.inr ⟨by rw [hop]; decide, decodeF_eq_illegal h⟩))
  case h_2 => cases h
  case h_3 hop => exact .inr (.inr (.inl ⟨by rw [hop]; decide, decodeN_eq_illegal h⟩))
  case h_4 hop => exact .inr (.inr (.inl ⟨by rw [hop]; decide, decodeN_eq_illegal h⟩))
  case h_5 hop => exact .inr (.inr (.inr ⟨by rw [hop]; decide, decodeF_eq_illegal h⟩))
  case h_6 hop => exact .inr (.inr (.inl ⟨by rw [hop]; decide, decodeN_eq_illegal h⟩))
  case h_7 h1 h2 h3 h4 h5 h6 =>
    simp only [imp_false] at h1 h2 h3 h4 h5 h6
    exact .inl (by omega)

theorem not_illegalWord_encode (i : Instr) : ¬ IllegalWord (encode i) := by
  rw [illegalWord_iff]
  cases i with
  | shiftBit value => simp [encode, commandWord_eq, formatN]
  | shiftByte latch value => simp [encode, commandWord_eq, formatN, formatF]
  | shiftClear => simp [encode, commandWord_eq, formatF]
  | latch => simp [encode, commandWord_eq, formatF]
  | enableOutput value => simp [encode, commandWord_eq, formatN]
  | getBitLength => simp [encode, commandWord_eq, formatF]

theorem not_illegalWord_of_decode {w : CmdWord} {i : Instr} (h : decode w = .instr i) : ¬ IllegalWord w :=
  encode_of_decode h ▸ not_illegalWord_encode i

/-! ## One row or none (30_encoding R75) -/

/-- The row of the opcode map that a command belongs to. -/
def opcodeRow : Instr → OpcodeRow
  | .shiftBit _ => opcodeMap[0]
  | .shiftByte _ _ => opcodeMap[1]
  | .shiftClear => opcodeMap[2]
  | .latch => opcodeMap[3]
  | .enableOutput _ => opcodeMap[4]
  | .getBitLength => opcodeMap[5]

theorem opcodeRow_mem (i : Instr) : opcodeRow i ∈ opcodeMap := by
  cases i <;> exact List.getElem_mem _

theorem opcodeRow_selects_of_decode {w : CmdWord} {i : Instr} (h : decode w = .instr i) : (opcodeRow i).selects w := by
  cases i with
  | shiftBit value => exact (decode_eq_shiftBit.mp h).1
  | shiftByte latch value => exact (decode_eq_shiftByte.mp h).1
  | shiftClear => exact decode_eq_shiftClear.mp h
  | latch => exact decode_eq_latch.mp h
  | enableOutput value => exact (decode_eq_enableOutput.mp h).1
  | getBitLength => exact decode_eq_getBitLength.mp h

theorem decode_of_selects {w : CmdWord} {row : OpcodeRow} (hmem : row ∈ opcodeMap) (hsel : row.selects w) :
    ∃ i, decode w = .instr i := by
  simp only [opcodeMap, List.mem_cons, List.not_mem_nil, or_false] at hmem
  obtain rfl | rfl | rfl | rfl | rfl | rfl := hmem
  · exact ⟨_, decode_eq_shiftBit.mpr ⟨hsel, rfl⟩⟩
  · exact ⟨_, decode_eq_shiftByte.mpr ⟨hsel, rfl, rfl⟩⟩
  · exact ⟨_, decode_eq_shiftClear.mpr hsel⟩
  · exact ⟨_, decode_eq_latch.mpr hsel⟩
  · exact ⟨_, decode_eq_enableOutput.mpr ⟨hsel, rfl⟩⟩
  · exact ⟨_, decode_eq_getBitLength.mpr hsel⟩

/-- Every row's mask holds the whole opcode. -/
theorem opField_of_selects {w : CmdWord} {row : OpcodeRow} (hmem : row ∈ opcodeMap) (hsel : row.selects w) :
    opField row.pattern = opField w := by
  have hmask : opField row.mask = BitVec.allOnes 4 := (by decide : ∀ r ∈ opcodeMap, opField r.mask = _) row hmem
  rw [← hsel, opField, BitVec.extractLsb'_and, ← opField, ← opField, hmask, BitVec.and_allOnes]

/-- No two rows share an opcode. -/
theorem eq_of_opField_pattern : ∀ row ∈ opcodeMap, ∀ row' ∈ opcodeMap,
    opField row.pattern = opField row'.pattern → row = row' := by decide

theorem selects_iff_eq_opcodeRow {w : CmdWord} {i : Instr} (h : decode w = .instr i) {row : OpcodeRow}
    (hmem : row ∈ opcodeMap) : row.selects w ↔ row = opcodeRow i := by
  have hsel := opcodeRow_selects_of_decode h
  constructor
  · intro hrow
    refine eq_of_opField_pattern row hmem _ (opcodeRow_mem i) ?_
    rw [opField_of_selects hmem hrow, opField_of_selects (opcodeRow_mem i) hsel]
  · rintro rfl
    exact hsel

theorem selecting_rows_of_decode {w : CmdWord} {i : Instr} (h : decode w = .instr i) :
    opcodeMap.filter (fun row => row.selects w) = [opcodeRow i] := by
  rw [List.filter_congr (q := fun row => row = opcodeRow i) fun row hmem =>
    decide_eq_decide.mpr (selects_iff_eq_opcodeRow h hmem)]
  cases i <;> rfl

theorem selecting_rows_of_decode_illegal {w : CmdWord} {why : IllegalReason} (h : decode w = .illegal why) :
    opcodeMap.filter (fun row => row.selects w) = [] := by
  rw [List.filter_eq_nil_iff]
  intro row hmem hsel
  obtain ⟨i, hi⟩ := decode_of_selects hmem (of_decide_eq_true hsel)
  cases h.symm.trans hi

/-- Settles O3: by what the decoder gives, the word selects its command's row alone, or it selects no row. -/
theorem everyWordIsOneCommandOrIllegal : Obligations.EveryWordIsOneCommandOrIllegal := by
  intro w
  cases h : decode w with
  | instr i =>
    have hlegal := not_illegalWord_of_decode h
    exact ⟨.inl ⟨by rw [selecting_rows_of_decode h, List.length_singleton], hlegal⟩, fun _ => hlegal, fun _ => ⟨i, rfl⟩⟩
  | illegal why =>
    have hillegal := illegalWord_of_decode_illegal h
    exact ⟨.inr ⟨by rw [selecting_rows_of_decode_illegal h, List.length_nil], hillegal⟩,
      fun ⟨_, hi⟩ => (by cases hi), fun hlegal => absurd hillegal hlegal⟩

end Sys2Proof.Machine
end

section
/-! The assembler's pseudo-instructions (30_encoding R81), the codes of events and statuses (R78, R79), and the words and
texts the spec writes out (R80). -/

namespace Sys2Proof.Machine

/-! ## Pseudo-instructions -/

theorem chainCommands_append_last (imms : List Nat) (last : Nat) :
    chainCommands (imms ++ [last]) =
      imms.map (fun n => .shiftByte false (BitVec.ofNat 8 n)) ++ [.shiftByte true (BitVec.ofNat 8 last)] := by
  induction imms with
  | nil => rfl
  | cons imm rest ih =>
    -- the rest of the chain is not empty, so `imm` is not its last byte
    have hcons : chainCommands (imm :: (rest ++ [last])) =
        .shiftByte false (BitVec.ofNat 8 imm) :: chainCommands (rest ++ [last]) := by
      cases rest <;> rfl
    rw [List.cons_append, hcons, ih, List.map_cons, List.cons_append]

theorem wf_shiftChain {imms : List Nat} (hne : imms ≠ []) (hfit : ∀ n ∈ imms, n ≤ 255) :
    (AsmLine.shiftChain imms).wf = true := by
  simpa [AsmLine.wf, immFits, hne] using hfit

/-- Settles O6: a chain by induction on its bytes, the other two by their expansions. -/
theorem pseudoInstructionsExpand : Obligations.PseudoInstructionsExpand := by
  refine ⟨fun imms last himms hlast => ?_, rfl, rfl, rfl⟩
  have hwf : (AsmLine.shiftChain (imms ++ [last])).wf = true := by
    refine wf_shiftChain (by simp) fun n hn => ?_
    obtain hn | hn := List.mem_append.mp hn
    · exact himms n hn
    · exact List.mem_singleton.mp hn ▸ hlast
  rw [assembleLine, if_pos hwf, expand, chainCommands_append_last, List.map_append, List.map_map]
  rfl

/-! ## Codes -/

theorem eventCode_toNat (e : Event) : (eventCode e).toNat = 2 * (lineIndex e.line).toNat + e.value.toNat := by
  have hv : (BitVec.ofBool e.value).toNat < 2 ^ 1 := (BitVec.ofBool e.value).isLt
  rw [eventCode, BitVec.toNat_append, ← Nat.shiftLeft_add_eq_or_of_lt hv, Nat.shiftLeft_eq, BitVec.toNat_ofBool]
  omega

theorem lineIndex_injective : Function.Injective lineIndex := by
  intro l m
  cases l <;> cases m <;> decide

theorem eventCode_injective : Function.Injective eventCode := by
  rintro ⟨l, v⟩ ⟨m, u⟩ h
  have hcode : 2 * (lineIndex l).toNat + v.toNat = 2 * (lineIndex m).toNat + u.toNat := by
    simpa only [eventCode_toNat] using congrArg BitVec.toNat h
  have hv := v.toNat_lt
  have hu := u.toNat_lt
  have hline : l = m := lineIndex_injective (BitVec.eq_of_toNat_eq (by omega))
  have hvalue : v = u := by
    rw [Bool.eq_iff_iff, ← Bool.toNat_eq_one, ← Bool.toNat_eq_one]
    omega
  rw [hline, hvalue]

/-- Settles O5: the code as a number, line by line, and that the line and the value can be read back from it. -/
theorem eventCodesAreLineThenValue : Obligations.EventCodesAreLineThenValue :=
  ⟨fun v => ⟨eventCode_toNat ⟨.ser, v⟩, eventCode_toNat ⟨.clk, v⟩, eventCode_toNat ⟨.lat, v⟩, eventCode_toNat ⟨.oe, v⟩⟩,
    fun _ _ h => eventCode_injective h⟩

/-- Settles O8: the table status by status. -/
theorem statusCodesAreTheTables : Obligations.StatusCodesAreTheTables := by
  refine ⟨rfl, fun st => ?_⟩
  cases st <;> decide

/-! ## Words and texts the spec writes out -/

/-- Settles O1, by running the decoder on the fifteen words. -/
theorem specWordsDecode : Obligations.SpecWordsDecode := by
  unfold Obligations.SpecWordsDecode
  decide

/-- Settles O7, by running the assembler on the twelve texts. -/
theorem assemblerFormsGiveTheirWords : Obligations.AssemblerFormsGiveTheirWords := by
  unfold Obligations.AssemblerFormsGiveTheirWords
  decide

end Sys2Proof.Machine
end

section
/-! One write on each of the two variants of an Output Line, a scheduler tick, and the record of a line
(40_output_line R91, R93, R95). -/

namespace Sys2Proof.Machine

/-! ## One write on a line of either variant -/

section

variable {e : Event} {s : State}

theorem level_lineWrite_of_succeeds (hf : writeFails s = false) : level (lineWrite e s) e.line = some e.value := by
  rw [level_lineWrite, if_pos rfl, writtenLevel_succeeds hf]

theorem phys_lineWrite_of_succeeds (hf : writeFails s = false) :
    phys (lineWrite e s) e.line = some (physLevel (s.line.get e.line).activeHigh e.value) := by
  rw [phys_lineWrite, if_pos rfl, writtenLevel_succeeds hf]

theorem lineWrite_pin_direct (hv : (s.line.get e.line).variant = .hardware) (hd : s.par.ioDeferred = false) :
    ((lineWrite e s).line.get e.line).pin = phys (lineWrite e s) e.line := by
  rw [lineWrite_pin, if_pos ⟨hd, hv, rfl⟩, phys_lineWrite, if_pos rfl]

/-- A deferred write is the last to land on its pin. -/
theorem drained_pin_lineWrite_deferred (hv : (s.line.get e.line).variant = .hardware) (hd : s.par.ioDeferred = true) :
    ((drained (lineWrite e s)).line.get e.line).pin = phys (lineWrite e s) e.line := by
  have hq : s.par.ioDeferred = false → s.queue = [] := fun h => absurd (hd.symm.trans h) (by decide)
  rw [drained_pin_lineWrite hq hv, if_pos rfl, phys_lineWrite, if_pos rfl]

/-- Whatever a write queues names its own line, so it decides the pin of no other, of either variant. -/
theorem drained_pin_lineWrite_other {l : Line} (hl : l ≠ e.line) :
    ((drained (lineWrite e s)).line.get l).pin = ((drained s).line.get l).pin := by
  rw [drained_pin, drained_pin, lineWrite_line_other e l s hl, lineWrite_queue]
  split
  · rw [pinAfter_append]
    exact pinAfter_of_filter_nil (by simp [hl.symm]) _ _
  · rfl

theorem lineWrite_queue_direct (hd : s.par.ioDeferred = false) : (lineWrite e s).queue = s.queue := by
  rw [lineWrite_queue, if_neg (by simp [hd])]

/-- A deferred write waits behind those already queued. -/
theorem lineWrite_queue_deferred (hf : writeFails s = false) (hv : (s.line.get e.line).variant = .hardware)
    (hd : s.par.ioDeferred = true) : (lineWrite e s).queue = s.queue ++ [⟨e.line, e.value⟩] := by
  rw [lineWrite_queue, if_pos ⟨hd, hv⟩, writtenLevel_succeeds hf]

theorem lineWrite_pin_deferred (l : Line) (hd : s.par.ioDeferred = true) :
    ((lineWrite e s).line.get l).pin = (s.line.get l).pin := by
  rw [lineWrite_pin, if_neg (by simp [hd])]

theorem lineWrite_fake (hv : (s.line.get e.line).variant = .recordingFake) :
    ((lineWrite e s).line.get e.line).pin = (s.line.get e.line).pin ∧ (lineWrite e s).queue = s.queue := by
  rw [lineWrite_pin, lineWrite_queue]
  simp [hv]

end

/-! ## A scheduler tick that lands `n` writes -/

theorem schedulerTick_of_direct {s : State} (hd : s.par.ioDeferred = false) : schedulerTick s = s := by
  simp [schedulerTick, hd]

theorem schedulerTick_of_deferred {s : State} {n : Nat} {later : List Nat} (hd : s.par.ioDeferred = true)
    (ht : s.ticks = n :: later) : schedulerTick s = landQueued n { s with ticks := later } := by
  simp [schedulerTick, hd, ht]

section

variable (n : Nat) (s : State)

theorem landQueued_queue : (landQueued n s).queue = s.queue.drop n := rfl

theorem landQueued_ticks : (landQueued n s).ticks = s.ticks := by
  rw [landQueued, landAll_eq]

theorem landQueued_pin (l : Line) : ((landQueued n s).line.get l).pin =
    pinAfter l (s.line.get l).activeHigh (s.queue.take n) (s.line.get l).pin :=
  landAll_pin (s.queue.take n) s l

end

/-! ## Commands and constructions on a recording fake, and the record of a line -/

theorem exec_fake {i : Instr} {s t : State} {l : Line} (hv : (s.line.get l).variant = .recordingFake)
    (h : exec i s = .next t) : (t.line.get l).pin = (s.line.get l).pin ∧
      t.queue.filter (fun q => q.line = l) = s.queue.filter (fun q => q.line = l) := by
  obtain ⟨ws, st, d, he, -⟩ := exec_ends i s
  rw [he] at h
  cases h
  exact runWrites_fake hv ws

theorem construct_fake {r : ConstructRecord} {s t : State} {l : Line} (hv : (s.line.get l).variant = .recordingFake)
    (h : construct r s = .next t) : (t.line.get l).pin = (s.line.get l).pin ∧
      t.queue.filter (fun q => q.line = l) = s.queue.filter (fun q => q.line = l) := by
  obtain ⟨rfl, -⟩ | ⟨st, d, rfl, -⟩ := construct_next h
  · exact ⟨rfl, rfl⟩
  · exact runWrites_fake (s := newEngine r s) hv _

theorem lineRecord_append (l : Line) (trace : List Event) (e : Event) :
    lineRecord l (trace ++ [e]) = if l = e.line then lineRecord l trace ++ [e] else lineRecord l trace := by
  rw [lineRecord, List.filter_append]
  split
  · next h => simp [lineRecord, h]
  · next h => simp [lineRecord, Ne.symm h]

/-! ## The statements -/

/-- Settles O15: a tick is `landQueued` of its number, and a deferred write goes to the end of the queue. -/
theorem schedulerTickLandsOldestWritesInOrder : Obligations.SchedulerTickLandsOldestWritesInOrder := by
  refine ⟨fun s hd => schedulerTick_of_direct hd, fun s n later hd ht => ?_, fun e s hf hv hd => ?_⟩
  · refine ⟨?_, ?_, schedulerTick_trace s, level_schedulerTick s, fun l => ?_⟩ <;> rw [schedulerTick_of_deferred hd ht]
    · exact landQueued_queue n _
    · exact landQueued_ticks n _
    · exact landQueued_pin n _ l
  · exact ⟨lineWrite_pin_deferred e.line hd, lineWrite_queue_deferred hf hv hd⟩

/-- Settles O17, variant by variant; what belongs to a line for its life is part of the wiring every step keeps. -/
theorem lineVariantsDriveOrOnlyRecord : Obligations.LineVariantsDriveOrOnlyRecord := by
  refine ⟨fun e s hv _ => ⟨lineWrite_pin_direct hv, drained_pin_lineWrite_deferred hv⟩, fun s t l hv h => ?_,
    fun e s l => ?_, fun s t l h => (step_keeps_wiring h).2 l⟩
  · obtain ⟨i, hi⟩ | ⟨r, hr⟩ := h
    · exact exec_fake hv hi
    · exact construct_fake hv hr
  · rw [lineWrite_trace, lineRecord_append]

/-- Settles O12: the clauses on level, pin and queue by the rules above, the rest by the frame of one write. -/
theorem lineWriteSetsLevelPinAndTrace : Obligations.LineWriteSetsLevelPinAndTrace := by
  refine ⟨fun s hc => writeFails_false (n := 0) (.inl hc), fun e s hf => ?_⟩
  exact ⟨level_lineWrite_of_succeeds hf, phys_lineWrite_of_succeeds hf, lineWrite_trace e s,
    fun l => lineWrite_line_other e l s, lineWrite_pinId e e.line s, lineWrite_activeHigh e e.line s,
    lineWrite_variant e e.line s, fun hv hd => ⟨lineWrite_pin_direct hv hd, lineWrite_queue_direct hd⟩,
    fun hv hd => ⟨drained_pin_lineWrite_deferred hv hd, fun _ => drained_pin_lineWrite_other⟩, lineWrite_fake,
    lineWrite_par e s, lineWrite_constructed e s, lineWrite_cfg e s, lineWrite_pending e s, lineWrite_hpc e s,
    lineWrite_responses e s⟩

end Sys2Proof.Machine
end

section
/-! The shift commands: the lines they leave alone, their writes as 41_shift R110 to R115 write them out, and their frame. -/

namespace Sys2Proof.Machine

/-! ## The lines a shift command leaves alone -/

/-- SHIFT_BIT, SHIFT_BYTE or SHIFT_CLEAR. -/
abbrev IsShift (i : Instr) : Prop := (∃ b, i = .shiftBit b) ∨ (∃ l v, i = .shiftByte l v) ∨ i = .shiftClear

/-- SHIFT_BIT, or SHIFT_BYTE without a latch. -/
abbrev IsUnlatchedShift (i : Instr) : Prop := (∃ b, i = .shiftBit b) ∨ (∃ v, i = .shiftByte false v)

theorem commandWrites_shift_ne_oe {i : Instr} (hi : IsShift i) {s : State} :
    ∀ e ∈ commandWrites i s, Line.oe ≠ e.line := by
  intro e he hl
  obtain ⟨value, rfl, -⟩ := commandWrites_oe he hl.symm
  simp [IsShift] at hi

theorem commandWrites_shift_ne_lat {i : Instr} (hi : IsUnlatchedShift i) {s : State} :
    ∀ e ∈ commandWrites i s, Line.lat ≠ e.line := by
  intro e he
  obtain ⟨b, rfl⟩ | ⟨v, rfl⟩ := hi
  · exact (bitWrites_mem he).2.symm
  · exact ((byteWrites_mem he).2 rfl).symm

/-- Settles O33: the frame of every command, with the lines that the shift commands do not name. -/
theorem shiftCommandsFrame : Obligations.ShiftCommandsFrame := by
  intro i s t hi h
  obtain ⟨⟨hpar, hcon, hcfg, hpend, hpc, hticks⟩, hother, hwiring, hqueue, hpins, htrace, hresp, -⟩ := exec_frame h
  exact ⟨hpar, hcon, hcfg, hpend, hpc, hticks, hother .oe (commandWrites_shift_ne_oe hi),
    fun hu => hother .lat (commandWrites_shift_ne_lat hu), hwiring, hqueue, hpins, htrace, hresp⟩

/-- A shift command whose checks pass always answers OK with DATA 0, or reports a failed write. -/
theorem exec_shift_answers {i : Instr} {s : State} (hi : IsShift i) (hc : s.constructed = true)
    (hp : Precondition i s) :
    ∃ t r, exec i s = .next t ∧ t.responses = s.responses ++ [r] ∧
      (r = ⟨.ok, 0#32⟩ ∨ r.status = .lineWriteFailed) ∧
      (IsUnlatchedShift i → t.line.lat = s.line.lat) ∧ t.line.oe = s.line.oe := by
  obtain ⟨t, r, ht, hresp, hr, hother⟩ := exec_answers hc hp
  have hdata : successData i s = 0#32 := if_neg (by rintro rfl; simp [IsShift] at hi)
  rw [hdata] at hr
  exact ⟨t, r, ht, hresp, hr.imp_right And.left, fun hu => hother .lat (commandWrites_shift_ne_lat hu),
    hother .oe (commandWrites_shift_ne_oe hi)⟩

/-! ## SHIFT_BIT -/

theorem exec_shiftBit_succeeds {value : Bool} {s : State} (hc : s.constructed = true) (hw : WritesSucceed 4 s) :
    exec (.shiftBit value) s = .next (respond .ok 0#32 (writeAll (bitWrites value) s)) :=
  exec_succeeds hc (by simp) hw

/-- Settles O23: with no failing write the four writes are carried out, and they end with SER and CLK at false. -/
theorem shiftBitIssuesItsFourWrites : Obligations.ShiftBitIssuesItsFourWrites := by
  intro value s hc
  constructor
  · intro hw
    have hlevel : ∀ l, level (writeAll (bitWrites value) s) l = lastLevel l (bitWrites value) (level s l) :=
      level_writeAll_last hw
    exact ⟨_, exec_shiftBit_succeeds hc hw, writeAll_trace _ s, by simp, hlevel .ser, hlevel .clk⟩
  · obtain ⟨t, r, ht, hresp, hr, hlat, hoe⟩ := exec_shift_answers (.inl ⟨value, rfl⟩) hc (by simp)
    exact ⟨t, r, ht, hresp, hr, hlat (.inl ⟨value, rfl⟩), hoe⟩

/-- Settles O52: the clock edge among the four writes shifts the value in, and none of them is a latch edge. -/
theorem shiftBitAdvancesTheShiftStage : Obligations.ShiftBitAdvancesTheShiftStage := by
  intro value s hc hw hk hclk
  obtain ⟨hstage, hout, -⟩ := bitWrites_dev (b := value) hk hclk hw
  exact ⟨_, exec_shiftBit_succeeds hc hw, hstage, hout⟩

/-! ## SHIFT_BYTE -/

theorem exec_shiftByte_succeeds {latch : Bool} {value : Byte} {s : State} (hc : s.constructed = true)
    (hw : WritesSucceed (if latch then 34 else 32) s) :
    exec (.shiftByte latch value) s = .next (respond .ok 0#32 (writeAll (byteWrites latch value) s)) :=
  exec_succeeds hc (by simp) (by rwa [commandWrites, byteWrites_length])

theorem byteWrites_eq (latch : Bool) (value : Byte) :
    byteWrites latch value = (List.range 8).flatMap (fun i => bitWrites (((0x80#8 >>> i) &&& value) != 0#8)) ++
      (if latch then pulseLat else []) := by
  rw [byteWrites, byteBits, List.flatMap_map]
  rfl

/-- Settles O24: with no failing write the byte's writes are carried out, and the last write of each line sets its level. -/
theorem shiftByteIssuesEightBitsThenLatch : Obligations.ShiftByteIssuesEightBitsThenLatch := by
  intro latch value s hc
  constructor
  · intro hw
    have hlevel := level_writeAll_last (ws := byteWrites latch value) (s := s) (by rwa [byteWrites_length])
    obtain ⟨hser, -, -⟩ := lastLevel_byte latch value (level s .ser)
    obtain ⟨-, hclk, -⟩ := lastLevel_byte latch value (level s .clk)
    obtain ⟨-, -, hlat⟩ := lastLevel_byte latch value (level s .lat)
    refine ⟨_, exec_shiftByte_succeeds hc hw, ?_, ?_, by simp, by rw [level_respond, hlevel, hser],
      by rw [level_respond, hlevel, hclk], by rw [level_respond, hlevel, hlat]⟩
    · rw [respond_trace, writeAll_trace, byteWrites_eq]
      rfl
    · rw [respond_trace, writeAll_trace, List.length_append, byteWrites_length]
  · obtain ⟨t, r, ht, hresp, hr, hlat, hoe⟩ := exec_shift_answers (.inr (.inl ⟨latch, value, rfl⟩)) hc (by simp)
    exact ⟨t, r, ht, hresp, hr, fun hl => hlat (.inr ⟨value, by rw [hl]⟩), hoe⟩

/-- The mask of R112 has one bit. -/
theorem shiftedMask_eq_twoPow : ∀ i ≤ 7, 0x80#8 >>> i = BitVec.twoPow 8 (7 - i) := by decide

theorem byteBit_eq_getLsbD (value : Byte) {i : Nat} (hi : i ≤ 7) : byteBit value i = value.getLsbD (7 - i) := by
  rw [byteBit, shiftedMask_eq_twoPow i hi, BitVec.and_comm, BitVec.and_twoPow]
  have hne : BitVec.twoPow 8 (7 - i) ≠ 0#8 := (by decide : ∀ i ≤ 7, BitVec.twoPow 8 (7 - i) ≠ 0#8) i hi
  cases value.getLsbD (7 - i) <;> simp [hne]

theorem byteBits_getElem? (value : Byte) {i : Nat} (hi : i ≤ 7) :
    (byteBits value)[i]? = some (value.getLsbD (7 - i)) := by
  rw [byteBits, List.getElem?_map, List.getElem?_range (by omega), Option.map_some, byteBit_eq_getLsbD value hi]

/-- Every fourth write presents the next bit. -/
theorem bitWrites_flatMap_getElem? (bits : List Bool) (i : Nat) :
    (bits.flatMap bitWrites)[4 * i]? = bits[i]?.map (Event.mk .ser) := by
  induction bits generalizing i with
  | nil => rfl
  | cons b bs ih =>
    cases i with
    | zero => rfl
    | succ i => exact ih i

theorem byteWrites_getElem? (latch : Bool) (value : Byte) {i : Nat} (hi : i ≤ 7) :
    (byteWrites latch value)[4 * i]? = some ⟨.ser, value.getLsbD (7 - i)⟩ := by
  have hlen : 4 * i < ((byteBits value).flatMap bitWrites).length := by
    rw [bitWrites_flatMap_length, byteBits_length]
    omega
  rw [byteWrites, List.getElem?_append_left hlen, bitWrites_flatMap_getElem?, byteBits_getElem? value hi,
    Option.map_some]

/-- Settles O25: the mask picks bit `7 - i`, and the four writes of each bit start with the one that presents it. -/
theorem byteBitIsMostSignificantFirst : Obligations.ByteBitIsMostSignificantFirst := by
  constructor
  · intro value i hi
    exact ⟨byteBit_eq_getLsbD value hi, byteBit_eq_getLsbD value hi, byteBits_getElem? value hi⟩
  · intro latch value s hc hw
    refine ⟨_, exec_shiftByte_succeeds hc hw, fun i hi => ?_⟩
    rw [respond_trace, writeAll_trace, List.getElem?_append_right (by omega), Nat.add_sub_cancel_left,
      byteWrites_getElem? latch value hi]

/-! ## SHIFT_CLEAR -/

theorem zeroByteWrites_eq :
    byteWrites true 0#8 = (List.replicate 8 (bitWrites false)).flatten ++ pulseLat := by decide

/-- Settles O26: misaligned, the error; aligned, the latched zero bytes or the first write that fails. -/
theorem shiftClearShiftsLatchedZeroBytes : Obligations.ShiftClearShiftsLatchedZeroBytes := by
  intro s hc
  refine ⟨exec_clear_misaligned hc, fun hal hw => ?_, fun hal => ?_⟩
  · have hlen := clearWrites_length s.cfg.bitLength.toNat
    refine ⟨_, exec_succeeds hc (fun _ => hal) (by rwa [commandWrites, hlen]), ?_, ?_, by simp [successData]⟩
    · rw [respond_trace, writeAll_trace, commandWrites, clearWrites, zeroByteWrites_eq]
      rfl
    · rw [respond_trace, writeAll_trace, List.length_append, commandWrites, hlen]
  · obtain ⟨t, r, ht, hresp, hr, -⟩ := exec_shift_answers (.inr (.inr rfl)) hc (fun _ => hal)
    exact ⟨t, r, ht, hresp, hr⟩

/-- Settles O27: the alignment error is a response and nothing else. -/
theorem misalignedClearIsWholeFailure : Obligations.MisalignedClearIsWholeFailure := by
  intro s t hc hmis h
  rw [exec_clear_misaligned hc hmis] at h
  cases h
  exact ⟨rfl, rfl, rfl, hc, rfl, rfl, rfl⟩

end Sys2Proof.Machine
end

section
/-! A chain of SHIFT_BYTE commands as steps of the host (41_shift R118): the bits that a run of bytes puts in front of the
shift stage, one command's effect on a device that may have a failed write outstanding (60_exceptions R178), and the run. -/

namespace Sys2Proof.Machine

/-! ## The bits of the value sent -/

/-- The `n` low bits of `v`, least significant first. -/
def lowBits (n v : Nat) : List Bool := (List.range n).map v.testBit

@[simp] theorem lowBits_length (n v : Nat) : (lowBits n v).length = n := by simp [lowBits]

theorem lowBits_getElem? {n p : Nat} (v : Nat) (hp : p < n) : (lowBits n v)[p]? = some (v.testBit p) := by
  rw [lowBits, List.getElem?_map, List.getElem?_range hp, Option.map_some]

/-- The last bit of a byte shifted, bit 0, is the nearest to the input. -/
theorem byteBits_reverse (b : Byte) : (byteBits b).reverse = lowBits 8 b.toNat := by
  refine List.ext_getElem? fun p => ?_
  by_cases hp : p < 8
  · rw [List.getElem?_reverse (by rwa [byteBits_length]), byteBits_length, byteBits_getElem? b (by omega),
      lowBits_getElem? _ hp, show 7 - (8 - 1 - p) = p by omega, BitVec.getLsbD]
  · rw [List.getElem?_eq_none (by simpa [byteBits_length] using hp), List.getElem?_eq_none (by simpa using hp)]

/-- A byte shifted in after `v` makes it `v * 256 + b`. -/
theorem byteBits_reverse_append (b : Byte) (n v : Nat) :
    (byteBits b).reverse ++ lowBits n v = lowBits (8 + n) (v * 256 + b.toNat) := by
  have hbit : ∀ p, (v * 256 + b.toNat).testBit p = if p < 8 then b.toNat.testBit p else v.testBit (p - 8) := fun p => by
    rw [show v * 256 = 2 ^ 8 * v by omega, Nat.testBit_two_pow_mul_add v b.isLt]
  rw [byteBits_reverse, lowBits, lowBits, lowBits, List.range_add, List.map_append, List.map_map]
  congr 1
  · exact List.map_congr_left fun p hp => by rw [hbit, if_pos (List.mem_range.mp hp)]
  · exact List.map_congr_left fun p _ => by
      rw [Function.comp_apply, hbit, if_neg (by omega), Nat.add_sub_cancel_left]

/-! ## The outputs of a device whose outputs are enabled (60_exceptions R176) -/

/-- OE is absent, or at false. -/
abbrev OutputsEnabled (s : State) : Prop := s.cfg.present.oe = false ∨ level s .oe = some false

theorem outputsEnabled_writeLine {e : Event} {s : State} (he : e.line ≠ .oe) (h : OutputsEnabled s) :
    OutputsEnabled (writeLine e s) := by
  simpa [OutputsEnabled, level, writeLine_line_other e .oe s he.symm] using h

theorem outputsFor_of_enabled {s : State} (h : OutputsEnabled s) (out : List Bool) :
    outputsFor out s = out.map .driven := by
  rw [outputsFor]
  split
  · next hp =>
    obtain h | h := h
    · rw [hp] at h
      cases h
    · change s.line.oe.lvl = some false at h
      rw [h]
  · rfl

theorem lineWrite_outputs_of_enabled {e : Event} {s : State} (hk : DeviceKnown s) (hf : writeFails s = false)
    (he : e.line ≠ .oe) (h : OutputsEnabled s) :
    (lineWrite e s).dev.outputs = (lineWrite e s).dev.out.map .driven := by
  rw [lineWrite_dev_known hk hf]
  exact outputsFor_of_enabled (outputsEnabled_writeLine he h) _

/-! ## The writes of one byte on a device that may have a failed write outstanding -/

section

variable {sent : List Bool} {s : State} {b : Byte}

/-- The bits sent stand in the shift stage and have been loaded: no failed write is outstanding any more. -/
structure Loaded (sent : List Bool) (s : State) : Prop where
  tracks : Tracks sent s
  settled : s.dev.unsettled = none
  loaded : s.dev.stage = s.dev.out
  shown : OutputsEnabled s → s.dev.outputs = s.dev.out.map .driven

theorem loaded_pulseLat (h : Tracks sent s) (hl : level s .lat = some false) (hn : s.par.devLen ≤ sent.length)
    (hw : WritesSucceed 2 s) : Loaded sent (writeAll pulseLat s) := by
  obtain ⟨h1, k1, o1⟩ := tracks_latch h (writeFails_false hw) hl hn
  have f1 : writeFails (lineWrite ⟨.lat, true⟩ s) = false := writeFails_false (n := 0) (writesSucceed_lineWrite _ hw)
  obtain ⟨hstage, hout⟩ := lineWrite_dev_keep (e := ⟨.lat, false⟩) k1 f1 (by simp)
  refine ⟨tracks_keep h1 f1 (by simp), (deviceKnown_lineWrite k1 f1).2, hstage.trans (o1.symm.trans hout.symm),
    fun hoe => lineWrite_outputs_of_enabled k1 f1 (by simp) ?_⟩
  simpa [pulseLat, OutputsEnabled, level_lineWrite] using hoe

theorem tracks_byte (h : Tracks sent s) (hl : level s .clk = some false) (hw : WritesSucceed 32 s) :
    Tracks ((byteBits b).reverse ++ sent) (writeAll ((byteBits b).flatMap bitWrites) s) :=
  tracks_bits _ h hl (by rwa [byteBits_length])

theorem tracks_unlatchedByte (h : Tracks sent s) (hr : AtRest s) (hw : WritesSucceed 32 s) :
    Tracks ((byteBits b).reverse ++ sent) (writeAll (byteWrites false b) s) := by
  obtain ⟨-, hclk, -⟩ := hr
  rw [byteWrites, if_neg (by decide), List.append_nil]
  exact tracks_byte h hclk hw

/-- The latch pulse of a byte that completes the chain's length loads the bits sent. -/
theorem loaded_latchedByte (h : Tracks sent s) (hr : AtRest s) (hn : s.par.devLen ≤ 8 + sent.length)
    (hw : WritesSucceed 34 s) : Loaded ((byteBits b).reverse ++ sent) (writeAll (byteWrites true b) s) := by
  obtain ⟨-, hclk, hlat⟩ := hr
  have hlen : ((byteBits b).flatMap bitWrites).length = 32 := by rw [bitWrites_flatMap_length, byteBits_length]
  have hw32 : WritesSucceed 32 s := writesSucceed_mono (by omega) hw
  rw [byteWrites, if_pos rfl, writeAll_append]
  refine loaded_pulseLat (tracks_byte h hclk hw32) ?_ (by simpa [byteBits_length] using hn)
    (writesSucceed_writeAll (by rwa [hlen]))
  obtain ⟨-, -, hkeep⟩ := lastLevel_bits (byteBits b) (level s .lat)
  rw [level_writeAll_last (by rwa [hlen]), hkeep, hlat]

end

/-! ## One SHIFT_BYTE as a step of the host -/

/-- The state after the step that carries out SHIFT_BYTE with no failing write, with `rest` the moves still to come. -/
def byteDone (latch : Bool) (b : Byte) (rest : List HostMove) (s : State) : State :=
  endCommand (respond .ok 0#32 (writeAll (byteWrites latch b) { s with pending := rest }))

/-- Between the commands of a chain: a constructed engine at rest, with `sent` in the shift stage. -/
structure Shifting (sent : List Bool) (s : State) : Prop where
  constructed : s.constructed = true
  atRest : AtRest s
  tracks : Tracks sent s

section

variable {latch : Bool} {b : Byte} {rest : List HostMove} {sent : List Bool} {s : State}

theorem step_shiftByte (hp : s.pending = .command (encode (.shiftByte latch b)) :: rest) (hc : s.constructed = true)
    (hw : WritesSucceed (if latch then 34 else 32) s) : step s = .next (byteDone latch b rest s) := by
  rw [step_of_command hp, runWord_of_instr (decode_encode _),
    exec_shiftByte_succeeds (s := { s with pending := rest }) hc hw]
  rfl

@[simp] theorem byteDone_par : (byteDone latch b rest s).par = s.par := by simp [byteDone, endCommand]
@[simp] theorem byteDone_constructed : (byteDone latch b rest s).constructed = s.constructed := by
  simp [byteDone, endCommand]
@[simp] theorem byteDone_cfg : (byteDone latch b rest s).cfg = s.cfg := by simp [byteDone, endCommand]
@[simp] theorem byteDone_pending : (byteDone latch b rest s).pending = rest := by simp [byteDone, endCommand]
@[simp] theorem byteDone_hpc : (byteDone latch b rest s).hpc = s.hpc + 1 := by simp [byteDone, endCommand]
@[simp] theorem byteDone_activeHigh (l : Line) :
    ((byteDone latch b rest s).line.get l).activeHigh = (s.line.get l).activeHigh := by simp [byteDone, endCommand]
@[simp] theorem byteDone_dev :
    (byteDone latch b rest s).dev = (writeAll (byteWrites latch b) { s with pending := rest }).dev := by
  simp [byteDone, endCommand]
@[simp] theorem byteDone_lineReports : (byteDone latch b rest s).lineReports =
    (writeAll (byteWrites latch b) { s with pending := rest }).lineReports := by simp [byteDone, endCommand]
@[simp] theorem level_byteDone (l : Line) :
    level (byteDone latch b rest s) l = level (writeAll (byteWrites latch b) { s with pending := rest }) l := by
  simp [byteDone, endCommand]

theorem outputsEnabled_byteDone (hw : WritesSucceed (if latch then 34 else 32) s) :
    OutputsEnabled (byteDone latch b rest s) ↔ OutputsEnabled s := by
  have hoe : (writeAll (byteWrites latch b) { s with pending := rest }).line.get .oe = s.line.get .oe :=
    writeAll_line_other (s := { s with pending := rest }) (by rwa [byteWrites_length])
      fun e he => (byteWrites_mem he).1.symm
  rw [OutputsEnabled, OutputsEnabled, byteDone_cfg, level_byteDone, level, hoe, level]

theorem writesSucceed_byteDone {n : Nat} (hw : WritesSucceed ((if latch then 34 else 32) + n) s) :
    WritesSucceed n (byteDone latch b rest s) := by
  have h : WritesSucceed n (writeAll (byteWrites latch b) { s with pending := rest }) :=
    writesSucceed_writeAll (s := { s with pending := rest }) (by rwa [byteWrites_length])
  simpa [WritesSucceed] using h

theorem tracks_moves (h : Tracks sent s) : Tracks sent { s with pending := rest } :=
  tracks_congr h rfl rfl (fun _ => rfl) rfl

/-- A byte without a latch leaves the engine ready for the next one. -/
theorem shifting_byteDone (h : Shifting sent s) (hw : WritesSucceed 34 s) :
    Shifting ((byteBits b).reverse ++ sent) (byteDone false b rest s) where
  constructed := by rw [byteDone_constructed, h.constructed]
  atRest := by
    simpa [AtRest] using atRest_byte (latch := false) (value := b) (s := { s with pending := rest }) h.atRest hw
  tracks := by
    have hmoves : Tracks sent { s with pending := rest } := tracks_moves h.tracks
    exact tracks_congr (tracks_unlatchedByte hmoves h.atRest (writesSucceed_mono (by omega) hw)) (by simp) (by simp)
      (by simp) byteDone_dev

/-- A byte with a latch loads the chain. -/
theorem loaded_byteDone (h : Shifting sent s) (hn : s.par.devLen ≤ 8 + sent.length) (hw : WritesSucceed 34 s) :
    Loaded ((byteBits b).reverse ++ sent) (byteDone true b rest s) := by
  have hmoves : Tracks sent { s with pending := rest } := tracks_moves h.tracks
  obtain ⟨htracks, hsettled, hloaded, hshown⟩ := loaded_latchedByte (b := b) hmoves h.atRest hn hw
  refine ⟨tracks_congr htracks (by simp) (by simp) (by simp) byteDone_dev, ?_, ?_, fun hoe => ?_⟩ <;> rw [byteDone_dev]
  · exact hsettled
  · exact hloaded
  · exact hshown (by simpa [OutputsEnabled] using hoe)

end

/-! ## The run -/

/-- The value of a chain of bytes sent after `v`. -/
def chainValueFrom (v : Nat) (bytes : List Byte) : Nat := bytes.foldl (fun v b => v * 256 + b.toNat) v

theorem chainValueFrom_cons (v : Nat) (b : Byte) (bytes : List Byte) :
    chainValueFrom v (b :: bytes) = chainValueFrom (v * 256 + b.toNat) bytes := rfl

theorem chainValue_eq_from (bytes : List Byte) : chainValue bytes = chainValueFrom 0 bytes := rfl

theorem core_run_succ {s t : State} (k : Nat) (h : step s = .next t) :
    Sys2Proof.core.run (k + 1) s = Sys2Proof.core.run k t := by
  have hcore : Sys2Proof.core.step s = .next t := h
  simp only [Host.Core.run, hcore]

/-- Byte by byte, from any bits already sent: the last one loads the chain. -/
theorem run_chainMoves {bytes : List Byte} {n v : Nat} {rest : List HostMove} {s : State} (hne : bytes ≠ [])
    (hlen : s.par.devLen ≤ 8 * bytes.length + n) (hp : s.pending = chainMoves bytes ++ rest)
    (h : Shifting (lowBits n v) s) (hw : WritesSucceed (32 * bytes.length + 2) s) :
    ∃ t : State, Sys2Proof.core.run bytes.length s = .next t ∧ t.pending = rest ∧ t.hpc = s.hpc + bytes.length ∧
      t.par = s.par ∧ (OutputsEnabled t ↔ OutputsEnabled s) ∧
      Loaded (lowBits (8 * bytes.length + n) (chainValueFrom v bytes)) t := by
  induction bytes generalizing n v s with
  | nil => exact absurd rfl hne
  | cons b bytes ih =>
    cases bytes with
    | nil =>
      have hloaded := loaded_byteDone (b := b) (rest := rest) h (by simpa using hlen) hw
      rw [byteBits_reverse_append] at hloaded
      exact ⟨_, core_run_succ 0 (step_shiftByte hp h.constructed hw), byteDone_pending, byteDone_hpc, byteDone_par,
        outputsEnabled_byteDone hw, hloaded⟩
    | cons c bytes =>
      simp only [List.length_cons] at hlen hw
      have hw32 : WritesSucceed 32 s := writesSucceed_mono (by omega) hw
      have hshift := shifting_byteDone (b := b) (rest := chainMoves (c :: bytes) ++ rest) h
        (writesSucceed_mono (by omega) hw)
      rw [byteBits_reverse_append] at hshift
      have hw' : WritesSucceed (32 * (c :: bytes).length + 2)
          (byteDone false b (chainMoves (c :: bytes) ++ rest) s) :=
        writesSucceed_byteDone (writesSucceed_mono (by simp; omega) hw)
      obtain ⟨t, hrun, hpend, hpc, hpar, hoe, hloaded⟩ := ih (by simp)
        (by simp only [byteDone_par, List.length_cons]; omega) byteDone_pending hshift hw'
      refine ⟨t, (core_run_succ _ (step_shiftByte hp h.constructed hw32)).trans hrun, hpend, ?_,
        hpar.trans byteDone_par, hoe.trans (outputsEnabled_byteDone hw32), ?_⟩
      · rw [hpc, byteDone_hpc, Nat.add_assoc, Nat.add_comm 1]
        rfl
      · rwa [show 8 * (b :: c :: bytes).length + n = 8 * (c :: bytes).length + (8 + n) by simp; omega,
          chainValueFrom_cons]

/-- Settles O53, from no bit sent: whatever the device held, the bits of the chain's value reach its whole length. -/
theorem completeShiftLoadsTheChain : Obligations.CompleteShiftLoadsTheChain := by
  intro bytes rest s hne hlen hp hc hr ha hsized hw
  obtain ⟨t, hrun, hpend, hpc, hpar, hoe, ⟨htracks, hsettled, hloaded, hshown⟩⟩ :=
    run_chainMoves (n := 0) (v := 0) hne hlen hp ⟨hc, hr, tracks_nil ha hsized⟩ hw
  refine ⟨t, hrun, hpend, hpc, ?_, hloaded, hsettled, fun p hlt => ?_, fun h => hshown (hoe.mpr h)⟩
  · rw [← hloaded, htracks.len, hpar]
  · have hsent : p < 8 * bytes.length + 0 := by omega
    rw [← hloaded, htracks.known p (by rwa [hpar]) (by rwa [lowBits_length]), lowBits_getElem? _ hsent,
      chainValue_eq_from]

end Sys2Proof.Machine
end

section
/-! LATCH and ENABLE_OUTPUT: the lines they leave alone, their writes as 42_latch_output R130 and R131 write them out, a
second LATCH in a row (R132), and their frame. -/

namespace Sys2Proof.Machine

/-! ## The lines LATCH and ENABLE_OUTPUT leave alone -/

theorem commandWrites_latch_ne {l : Line} (hl : l ≠ .lat) {s : State} : ∀ e ∈ commandWrites .latch s, l ≠ e.line := by
  simpa [commandWrites, pulseLat] using hl

theorem commandWrites_enableOutput_ne {l : Line} (hl : l ≠ .oe) {value : Bool} {s : State} :
    ∀ e ∈ commandWrites (.enableOutput value) s, l ≠ e.line := by
  intro e he
  cases hp : s.cfg.present.oe with
  | true =>
    have hev : e = ⟨.oe, value⟩ := by simpa [commandWrites, enableWrites, hp] using he
    rwa [hev]
  | false => simp [commandWrites, enableWrites, hp] at he

theorem commandWrites_enableOutput_absent {s : State} (hp : s.cfg.present.oe = false) (value : Bool) :
    commandWrites (.enableOutput value) s = [] := by
  simp [commandWrites, enableWrites, hp]

theorem commandWrites_enableOutput_present {s : State} (hp : s.cfg.present.oe = true) (value : Bool) :
    commandWrites (.enableOutput value) s = [⟨.oe, value⟩] := by
  simp [commandWrites, enableWrites, hp]

/-- Settles O34: the frame of every command, with the lines that each of the two does not name, and the empty list of
writes of ENABLE_OUTPUT without OE. -/
theorem latchAndOutputFrame : Obligations.LatchAndOutputFrame := by
  intro i s t hi h
  obtain ⟨⟨hpar, hcon, hcfg, hpend, hpc, hticks⟩, hother, hwiring, hqueue, hpins, htrace, hresp, hdev⟩ := exec_frame h
  obtain rfl | ⟨value, rfl⟩ := hi
  · exact ⟨hpar, hcon, hcfg, hpend, hpc, hticks, hother .ser (commandWrites_latch_ne (by decide)),
      hother .clk (commandWrites_latch_ne (by decide)), fun _ => hother .oe (commandWrites_latch_ne (by decide)),
      fun hne => absurd rfl hne, fun hne => absurd rfl hne, hwiring, hqueue, hpins, htrace, hresp⟩
  · refine ⟨hpar, hcon, hcfg, hpend, hpc, hticks, hother .ser (commandWrites_enableOutput_ne (by decide)),
      hother .clk (commandWrites_enableOutput_ne (by decide)), nofun,
      fun _ => hother .lat (commandWrites_enableOutput_ne (by decide)), fun _ hp => ?_, hwiring, hqueue, hpins, htrace,
      hresp⟩
    have hnone := commandWrites_enableOutput_absent hp value
    rw [hnone] at hother htrace
    obtain ⟨es, hes, htr⟩ := htrace
    rw [List.prefix_nil.mp hes, List.append_nil] at htr
    exact ⟨hother .oe nofun, hdev hnone, htr⟩

/-! ## ENABLE_OUTPUT -/

/-- Settles O29: the command's list of writes is empty without OE, and the one write of OE with it. -/
theorem enableOutputWritesOeWhenPresent : Obligations.EnableOutputWritesOeWhenPresent := by
  intro value s hc
  refine ⟨fun hp => ?_, fun hp hw => ?_, ?_⟩
  · have hnone := commandWrites_enableOutput_absent hp value
    rw [exec_runs hc (by simp), hnone]
    rfl
  · have hone := commandWrites_enableOutput_present hp value
    refine ⟨_, exec_succeeds hc (by simp) (by rwa [hone]), ?_, ?_, by simp [successData]⟩
    · rw [hone, respond_trace, writeAll_trace]
    · rw [hone, level_respond]
      exact level_lineWrite_of_succeeds (writeFails_false hw)
  · obtain ⟨t, r, ht, hresp, hr, hother⟩ := exec_answers (i := .enableOutput value) hc (by simp)
    refine ⟨t, r, ht, hresp, hr.imp_right fun ⟨hfailed, hne⟩ => ⟨hfailed, ?_⟩,
      hother .ser (commandWrites_enableOutput_ne (by decide)), hother .clk (commandWrites_enableOutput_ne (by decide)),
      hother .lat (commandWrites_enableOutput_ne (by decide))⟩
    by_contra hp
    exact hne (commandWrites_enableOutput_absent (Bool.eq_false_iff.mpr hp) value)

/-! ## LATCH -/

theorem exec_latch_succeeds {s : State} (hc : s.constructed = true) (hw : WritesSucceed 2 s) :
    exec .latch s = .next (respond .ok 0#32 (writeAll pulseLat s)) :=
  exec_succeeds hc (by simp) hw

theorem level_pulseLat {s : State} (hw : WritesSucceed 2 s) : level (writeAll pulseLat s) .lat = some false :=
  level_writeAll_last (ws := pulseLat) hw .lat

/-- Settles O28: with no failing write the pulse is carried out, and its rising edge loads the output stage. -/
theorem latchIssuesOnePulse : Obligations.LatchIssuesOnePulse := by
  intro s hc
  constructor
  · intro hw
    refine ⟨_, exec_latch_succeeds hc hw, writeAll_trace pulseLat s, by simp, level_pulseLat hw, fun hk hlat => ?_⟩
    obtain ⟨hout, hstage, -⟩ := pulseLat_dev hk hlat hw
    exact ⟨hout, hstage⟩
  · obtain ⟨t, r, ht, hresp, hr, hother⟩ := exec_answers (i := .latch) hc (by simp)
    exact ⟨t, r, ht, hresp, hr.imp_right And.left, hother .ser (commandWrites_latch_ne (by decide)),
      hother .clk (commandWrites_latch_ne (by decide)), hother .oe (commandWrites_latch_ne (by decide))⟩

/-! ## A second LATCH in a row: the lines -/

/-- The record of a line after a write of `v` that does not fail: the last write decides it (40_output_line R91, R95). -/
def LineState.written (deferred v : Bool) (x : LineState) : LineState :=
  { x with
    lvl := some v
    pin := if deferred = false ∧ x.variant = .hardware then some (physLevel x.activeHigh v) else x.pin }

theorem written_written (deferred v w : Bool) (x : LineState) :
    (x.written deferred v).written deferred w = x.written deferred w := by
  simp only [LineState.written]
  split <;> rfl

theorem lineWrite_line_of_succeeds {e : Event} {s : State} (hf : writeFails s = false) :
    (lineWrite e s).line.get e.line = (s.line.get e.line).written s.par.ioDeferred e.value := by
  have hid := lineWrite_pinId e e.line s
  have hpol := lineWrite_activeHigh e e.line s
  have hvar := lineWrite_variant e e.line s
  have hlvl : ((lineWrite e s).line.get e.line).lvl = some e.value := level_lineWrite_of_succeeds hf
  have hpin := lineWrite_pin e e.line s
  rw [writtenLevel_succeeds hf] at hpin
  generalize (lineWrite e s).line.get e.line = x at *
  cases x
  simp_all [LineState.written]

theorem pulseLat_line_lat {s : State} (hw : WritesSucceed 2 s) :
    (writeAll pulseLat s).line.lat = s.line.lat.written s.par.ioDeferred false := by
  have hrise := lineWrite_line_of_succeeds (e := ⟨.lat, true⟩) (writeFails_false hw)
  have hfall := lineWrite_line_of_succeeds (e := ⟨.lat, false⟩) (s := lineWrite ⟨.lat, true⟩ s)
    (writeFails_false (n := 0) (writesSucceed_lineWrite _ hw))
  rw [hrise, lineWrite_par] at hfall
  exact hfall.trans (written_written _ _ _ _)

/-- A pulse leaves every line as it is when LAT is as a write of false leaves it. -/
theorem pulseLat_line_of_written {s : State} (hw : WritesSucceed 2 s)
    (h : s.line.lat.written s.par.ioDeferred false = s.line.lat) : (writeAll pulseLat s).line = s.line := by
  refine PerLine.ext_get fun l => ?_
  by_cases hl : l = .lat
  · subst hl
    exact (pulseLat_line_lat hw).trans h
  · exact writeAll_line_other hw (commandWrites_latch_ne hl (s := s))

/-! ## A second LATCH in a row: the outputs -/

/-- OE is absent, or its level is known. -/
abbrev OeKnown (s : State) : Prop := s.cfg.present.oe = false ∨ level s .oe ≠ none

/-- The outputs follow the output stage and OE alone, unless OE is at an unknown level (60_exceptions R176). -/
theorem outputsFor_congr {s t : State} (hc : t.cfg = s.cfg) (hl : level t .oe = level s .oe) (hoe : OeKnown s)
    (out : List Bool) : outputsFor out t = outputsFor out s := by
  change t.line.oe.lvl = s.line.oe.lvl at hl
  simp only [outputsFor, hc, hl]
  split
  · next hp =>
    cases hv : s.line.oe.lvl with
    | some v => cases v <;> rfl
    | none => exact absurd hv (hoe.resolve_left (by simp [hp]))
  · rfl

theorem lineWrite_outputs {e : Event} {s : State} (hk : DeviceKnown s) (hf : writeFails s = false)
    (he : e.line ≠ .oe) (hoe : OeKnown s) :
    (lineWrite e s).dev.outputs = outputsFor (lineWrite e s).dev.out s := by
  rw [lineWrite_dev_known hk hf]
  exact outputsFor_congr (writeLine_cfg e s) (congrArg LineState.lvl (writeLine_line_other e .oe s he.symm)) hoe _

/-- The outputs after a pulse follow the output stage and OE as it was before: each of the two writes leaves OE alone. -/
theorem pulseLat_outputs {s : State} (hk : DeviceKnown s) (hw : WritesSucceed 2 s) (hoe : OeKnown s) :
    (writeAll pulseLat s).dev.outputs = outputsFor (writeAll pulseLat s).dev.out s := by
  have hf := writeFails_false hw
  have hlevel : level (lineWrite ⟨.lat, true⟩ s) .oe = level s .oe := by simp [level_lineWrite]
  have hoe' : OeKnown (lineWrite ⟨.lat, true⟩ s) := by rwa [OeKnown, hlevel, lineWrite_cfg]
  exact (lineWrite_outputs (e := ⟨.lat, false⟩) (deviceKnown_lineWrite hk hf)
    (writeFails_false (n := 0) (writesSucceed_lineWrite _ hw)) (by decide) hoe').trans
    (outputsFor_congr (lineWrite_cfg _ s) hlevel hoe _)

theorem level_pulseLat_oe {s : State} (hw : WritesSucceed 2 s) : level (writeAll pulseLat s) .oe = level s .oe :=
  level_writeAll_last (ws := pulseLat) hw .oe

theorem oeKnown_pulseLat {s : State} (hw : WritesSucceed 2 s) : OeKnown (writeAll pulseLat s) ↔ OeKnown s := by
  rw [OeKnown, writeAll_cfg, level_pulseLat_oe hw]

/-! ## A second LATCH in a row -/

/-- What a pulse that does not fail leaves, and a second one finds: LAT as a write of false leaves it, the shift stage
loaded, and outputs that show it. -/
structure Latched (s : State) : Prop where
  known : DeviceKnown s
  line : s.line.lat.written s.par.ioDeferred false = s.line.lat
  loaded : s.dev.out = s.dev.stage
  shown : OeKnown s → s.dev.outputs = outputsFor s.dev.out s

theorem latched_pulseLat {s : State} (hk : DeviceKnown s) (hlat : level s .lat = some false) (hw : WritesSucceed 2 s) :
    Latched (writeAll pulseLat s) := by
  obtain ⟨hout, hstage, hknown⟩ := pulseLat_dev hk hlat hw
  refine ⟨hknown, ?_, hout.trans hstage.symm, fun hoe => ?_⟩
  · rw [pulseLat_line_lat hw, writeAll_par, written_written]
  · rw [oeKnown_pulseLat hw] at hoe
    rw [pulseLat_outputs hk hw hoe, outputsFor_congr (writeAll_cfg _ s) (level_pulseLat_oe hw) hoe]

/-- A pulse on a latched chain changes no line, no stage and, with OE known, no output. -/
theorem Latched.pulseLat_keeps {s : State} (h : Latched s) (hw : WritesSucceed 2 s) :
    (writeAll pulseLat s).line = s.line ∧ (writeAll pulseLat s).dev.stage = s.dev.stage ∧
      (writeAll pulseLat s).dev.out = s.dev.out ∧
      (OeKnown s → (writeAll pulseLat s).dev.outputs = s.dev.outputs) := by
  have hlat : level s .lat = some false := (congrArg LineState.lvl h.line).symm
  obtain ⟨hout, hstage, -⟩ := pulseLat_dev h.known hlat hw
  have hkept := hout.trans h.loaded.symm
  exact ⟨pulseLat_line_of_written hw h.line, hstage, hkept,
    fun hoe => by rw [pulseLat_outputs h.known hw hoe, hkept, h.shown hoe]⟩

theorem latched_respond {s : State} (h : Latched s) (status : Status) (data : Data) :
    Latched (respond status data s) := ⟨h.known, h.line, h.loaded, h.shown⟩

/-- Settles O31: the first LATCH leaves the chain latched, and the second one's pulse keeps what it finds. -/
theorem secondLatchChangesOnlyTheTrace : Obligations.SecondLatchChangesOnlyTheTrace := by
  intro s t u hc hw hk hlat ht hu
  have hfirst : WritesSucceed 2 s := writesSucceed_mono (by decide) hw
  have hsecond : WritesSucceed 2 (respond .ok 0#32 (writeAll pulseLat s)) := writesSucceed_writeAll (ws := pulseLat) hw
  have hlatched := latched_respond (latched_pulseLat hk hlat hfirst) .ok 0#32
  rw [exec_latch_succeeds hc hfirst] at ht
  cases ht
  rw [exec_latch_succeeds (by simpa using hc) hsecond] at hu
  cases hu
  obtain ⟨hline, hstage, hout, houtputs⟩ := hlatched.pulseLat_keeps hsecond
  exact ⟨writeAll_trace pulseLat s, writeAll_trace pulseLat _, hline, hstage, hout, writeAll_cfg pulseLat _,
    writeAll_constructed pulseLat _, fun hoe => houtputs ((oeKnown_pulseLat hfirst).mpr hoe)⟩

end Sys2Proof.Machine
end

section
/-! GET_BIT_LENGTH (43_status R140): its answer with and without an engine, and its only word. -/

namespace Sys2Proof.Machine

theorem exec_getBitLength_constructed {s : State} (hc : s.constructed = true) :
    exec .getBitLength s = .next (respond .ok s.cfg.bitLength s) :=
  exec_runs hc (fun h => nomatch h)

/-- Opcode 0x6 belongs to one command. -/
theorem eq_getBitLength_of_decode {w : CmdWord} {i : Instr} (h : decode w = .instr i) (hop : opField w = 0x6#4) :
    i = .getBitLength := by
  rw [← encode_of_decode h] at hop
  cases i with
  | getBitLength => rfl
  | _ => simp [encode, commandWord_eq] at hop

/-- Settles O30: the answer by `exec` on a constructed engine and on none, and a legal word with opcode 0x6 is the
command's encoding. -/
theorem getBitLengthAnswersN : Obligations.GetBitLengthAnswersN := by
  refine ⟨fun _ hc => exec_getBitLength_constructed hc, fun _ hc => exec_not_constructed hc _, fun w hop hne => ?_⟩
  cases h : decode w with
  | illegal why => exact ⟨why, rfl⟩
  | instr i =>
    obtain rfl := eq_getBitLength_of_decode h hop
    exact absurd (decode_eq_getBitLength.mp h) (by rwa [and_maskN])

end Sys2Proof.Machine
end

section
/-! The one response of a command word and of a construction, check by check in the order of 60_exceptions R158, and what
an error leaves unchanged (R151 to R157). -/

namespace Sys2Proof.Machine

/-! ## The response of an operation -/

/-- Carried out from `s`, the operation `res` gives the host the one response `r` (30_encoding R78). -/
def Answers (s : State) (res : Result) (r : Response) : Prop := ∃ t, res = .next t ∧ t.responses = s.responses ++ [r]

section

variable {s : State} {res : Result} {r r' : Response} {ws : List Event} {data : Data}

theorem Answers.unique (h : Answers s res r) (h' : Answers s res r') : r = r' := by
  obtain ⟨t, ht, hr⟩ := h
  obtain ⟨u, hu, hr'⟩ := h'
  cases ht.symm.trans hu
  simpa using hr.symm.trans hr'

theorem answers_respond (s : State) (status : Status) (data : Data) :
    Answers s (.next (respond status data s)) ⟨status, data⟩ := ⟨_, rfl, rfl⟩

theorem answers_endWrites_succeeds (hw : WritesSucceed ws.length s) :
    Answers s (endWrites data (runWrites ws s)) ⟨.ok, data⟩ := by
  rw [runWrites_succeeds hw]
  exact ⟨_, rfl, by simp⟩

theorem answers_endWrites_fails {j : Nat} {e : Event} (hj : FirstFailureAt j s) (he : ws[j]? = some e) :
    Answers s (endWrites data (runWrites ws s)) ⟨.lineWriteFailed, (eventCode e).setWidth 32⟩ := by
  obtain ⟨t, ht, -, hr, -⟩ := endWrites_failed hj he data
  exact ⟨t, ht, hr⟩

/-- Writes end with `OK` or with the first failure, and with no other error. -/
theorem endWrites_answers (data : Data) (ws : List Event) (s : State) :
    ∃ r, Answers s (endWrites data (runWrites ws s)) r ∧ (r.status = .ok ∨ r.status = .lineWriteFailed) := by
  obtain ⟨-, he⟩ | ⟨e, -, he⟩ := endWrites_cases data (runWrites ws s)
  · exact ⟨⟨.ok, data⟩, ⟨_, he, by simp⟩, .inl rfl⟩
  · exact ⟨⟨.lineWriteFailed, failureData e⟩, ⟨_, he, by simp⟩, .inr rfl⟩

theorem endWrites_ne_refused (data : Data) (out : State × Option Event) (why : Refusal) :
    endWrites data out ≠ .refused why := by
  obtain ⟨-, he⟩ | ⟨e, -, he⟩ := endWrites_cases data out <;> simp [he]

/-- Where writes end with an error, it is the report of a failed one. -/
theorem lineWriteFailed_of_endWrites (h : Answers s (endWrites data (runWrites ws s)) r) (hok : r.status ≠ .ok) :
    r.status = .lineWriteFailed := by
  obtain ⟨r', h', hr'⟩ := endWrites_answers data ws s
  rw [h.unique h'] at hok ⊢
  exact hr'.resolve_left hok

end

/-! ## Command words -/

section

variable {s : State} {w : CmdWord} {i : Instr}

theorem exists_decode_iff (w : CmdWord) : (∃ i, decode w = .instr i) ↔ ¬ IllegalWord w :=
  (everyWordIsOneCommandOrIllegal w).2

/-- R158 step 1. -/
theorem runWord_of_illegalWord (h : IllegalWord w) (s : State) :
    runWord w s = .next (respond .illegalCommand (w.setWidth 32) s) := by
  cases hd : decode w with
  | instr i => exact absurd h (not_illegalWord_of_decode hd)
  | illegal why => exact runWord_of_illegal hd s

/-- R158 step 2. -/
theorem runWord_not_constructed (h : ¬ IllegalWord w) (hc : s.constructed = false) :
    runWord w s = .next (respond .notConstructed 0#32 s) := by
  obtain ⟨i, hd⟩ := (exists_decode_iff w).mpr h
  rw [runWord_of_instr hd, exec_not_constructed hc]

/-- R158 step 3. -/
theorem runWord_clear_misaligned (hc : s.constructed = true) (hmis : s.cfg.bitLength.toNat % 8 ≠ 0) :
    runWord 0x3000#16 s = .next (respond .configNotByteAligned s.cfg.bitLength s) := by
  have hd : decode 0x3000#16 = .instr .shiftClear := decode_encode .shiftClear
  rw [runWord_of_instr hd, exec_clear_misaligned hc hmis]

/-- R158 step 4. -/
theorem runWord_runs (hd : decode w = .instr i) (hc : s.constructed = true)
    (hal : ¬ (w = 0x3000#16 ∧ s.cfg.bitLength.toNat % 8 ≠ 0)) :
    runWord w s = endWrites (successData i s) (runWrites (commandWrites i s) s) := by
  have hp : Precondition i s := by
    rintro rfl
    by_contra hmis
    exact hal ⟨(encode_of_decode hd).symm, hmis⟩
  rw [runWord_of_instr hd, exec_runs hc hp]

theorem runWord_answers_once (w : CmdWord) (s : State) : ∃ r, Answers s (runWord w s) r := by
  cases hd : decode w with
  | instr i =>
    obtain ⟨ws, st, d, he, -⟩ := exec_ends i s
    exact ⟨⟨st, d⟩, _, (runWord_of_instr hd s).trans he, by simp⟩
  | illegal why => exact ⟨_, _, runWord_of_illegal hd s, rfl⟩

/-- An error of a command that is not the report of a failed write: which it can be, and that it is all that happens. -/
theorem exec_error {r : Response} (h : Answers s (exec i s) r) (hok : r.status ≠ .ok)
    (hw : r.status ≠ .lineWriteFailed) :
    (r.status = .notConstructed ∨
      r.status = .configNotByteAligned ∧ s.constructed = true ∧ i = .shiftClear ∧ s.cfg.bitLength.toNat % 8 ≠ 0) ∧
    exec i s = .next (respond r.status r.data s) := by
  obtain ⟨-, he⟩ | ⟨hc, hp, rfl, he⟩ | ⟨-, -, he⟩ := exec_cases i s <;> rw [he] at h ⊢
  · cases h.unique (answers_respond s _ _)
    exact ⟨.inl rfl, rfl⟩
  · cases h.unique (answers_respond s _ _)
    exact ⟨.inr ⟨rfl, hc, rfl, by simpa using hp⟩, rfl⟩
  · exact absurd (lineWriteFailed_of_endWrites h hok) hw

end

/-! ## Constructions -/

/-- BIT_LENGTH is 0 or above the maximum (R156). -/
abbrev LengthOutOfRange (c : ConstructRecord) (s : State) : Prop :=
  c.bitLength.toNat = 0 ∨ s.par.bitLengthMax.toNat < c.bitLength.toNat

section

variable {s : State} {c : ConstructRecord}

theorem missingMask_ne_zero {present : BitVec 4} : missingMask present ≠ 0#3 ↔
    present.getLsbD 0 = false ∨ present.getLsbD 1 = false ∨ present.getLsbD 2 = false := by
  simp only [ne_eq, missingMask_eq_zero, not_and_or, Bool.not_eq_true]

/-- Only the range check refuses. -/
theorem construct_eq_refused {why : Refusal} :
    construct c s = .refused why ↔ LengthOutOfRange c s ∧ why = .bitLengthOutOfRange := by
  obtain ⟨hr, he⟩ | ⟨h1, h2, -, he⟩ | ⟨h1, h2, -, he⟩ := construct_cases c s <;> rw [he]
  · simp [hr, eq_comm]
  · simp only [reduceCtorEq, false_iff, not_and]
    omega
  · simp only [endWrites_ne_refused, false_iff, not_and]
    omega

theorem construct_missing (hr : ¬ LengthOutOfRange c s) (hm : missingMask c.present ≠ 0#3) :
    construct c s = .next (respond .configMissingLine ((missingMask c.present).setWidth 32) s) := by
  obtain ⟨hout, -⟩ | ⟨-, -, -, he⟩ | ⟨-, -, hm', -⟩ := construct_cases c s
  · exact absurd hout hr
  · exact he
  · exact absurd hm' hm

theorem construct_runs (hr : ¬ LengthOutOfRange c s) (hm : missingMask c.present = 0#3) :
    construct c s = endWrites 0#32 (runWrites (constructWrites (c.present.getLsbD 3)) (newEngine c s)) := by
  obtain ⟨hout, -⟩ | ⟨-, -, hm', -⟩ | ⟨-, -, -, he⟩ := construct_cases c s
  · exact absurd hout hr
  · exact absurd hm hm'
  · exact he

/-- Setting up the engine leaves the responses alone. -/
theorem answers_of_newEngine {res : Result} {r : Response} (h : Answers (newEngine c s) res r) : Answers s res r := h

theorem construct_answers_once (hr : ¬ LengthOutOfRange c s) : ∃ r, Answers s (construct c s) r := by
  by_cases hm : missingMask c.present = 0#3
  · obtain ⟨r, h, -⟩ := endWrites_answers 0#32 (constructWrites (c.present.getLsbD 3)) (newEngine c s)
    rw [construct_runs hr hm]
    exact ⟨r, answers_of_newEngine h⟩
  · rw [construct_missing hr hm]
    exact ⟨_, answers_respond s _ _⟩

/-- An error of a construction that is not the report of a failed write names the missing lines, and is all that
happens. -/
theorem construct_error {r : Response} (h : Answers s (construct c s) r) (hok : r.status ≠ .ok)
    (hw : r.status ≠ .lineWriteFailed) :
    missingMask c.present ≠ 0#3 ∧ construct c s = .next (respond r.status r.data s) := by
  have hr : ¬ LengthOutOfRange c s := fun hr => by
    obtain ⟨t, ht, -⟩ := h
    cases ht.symm.trans (construct_eq_refused.mpr ⟨hr, rfl⟩)
  by_cases hm : missingMask c.present = 0#3
  · rw [construct_runs hr hm] at h
    exact absurd (lineWriteFailed_of_endWrites (s := newEngine c s) h hok) hw
  · rw [construct_missing hr hm] at h ⊢
    cases h.unique (answers_respond s _ _)
    exact ⟨hm, rfl⟩

end

/-! ## Steps -/

section

variable {s : State} {rest : List HostMove} {r : Response}

theorem step_answers_of_runWord {w : CmdWord} (hp : s.pending = .command w :: rest)
    (h : Answers s (runWord w { s with pending := rest }) r) : Answers s (step s) r := by
  obtain ⟨t, ht, hr⟩ := h
  exact ⟨endCommand t, by rw [step_of_command hp, ht, thenNext], by simpa [endCommand] using hr⟩

theorem step_answers_of_construct {c : ConstructRecord} (hp : s.pending = .construct c :: rest)
    (h : Answers s (construct c { s with pending := rest }) r) : Answers s (step s) r := by
  obtain ⟨t, ht, hr⟩ := h
  exact ⟨schedulerTick t, by rw [step_of_construct hp, ht, thenNext], by simpa using hr⟩

theorem thenNext_eq_refused {f : State → State} {res : Result} {why : Refusal} :
    thenNext f res = .refused why ↔ res = .refused why := by
  cases res <;> simp [thenNext]

end

/-! ## The statements -/

/-- Settles O35: the first check of R158. -/
theorem illegalWordIsReportedAndIgnored : Obligations.IllegalWordIsReportedAndIgnored :=
  fun s _ h => runWord_of_illegalWord h s

/-- Settles O36: the second check of R158. -/
theorem commandBeforeConstructionIsReported : Obligations.CommandBeforeConstructionIsReported :=
  fun _ _ h hc => runWord_not_constructed h hc

/-- Settles O37: the third check of R158, and the errors a command can answer. -/
theorem onlyMisalignedClearIsAConfigurationError : Obligations.OnlyMisalignedClearIsAConfigurationError := by
  refine fun i s => ⟨?_, fun t data ht hr => ?_, fun t data ht hr => ?_⟩
  · rintro ⟨hc, rfl, hmis⟩
    exact exec_clear_misaligned hc hmis
  · obtain ⟨h | ⟨-, h⟩, -⟩ := exec_error ⟨t, ht, hr⟩ (by simp) (by simp)
    · cases h
    · exact h
  · obtain ⟨h | ⟨h, -⟩, -⟩ := exec_error ⟨t, ht, hr⟩ (by simp) (by simp) <;> cases h

/-- Settles O38: the command's writes are issued, and the list stops at the one that fails. -/
theorem failedWriteStopsItsCommand : Obligations.FailedWriteStopsItsCommand := by
  intro i s j e hc hp hj he
  rw [exec_runs hc hp, ← hc]
  exact endWrites_failed hj he _

/-- Settles O40, for a command and for a construction. -/
theorem errorsArePrecise : Obligations.ErrorsArePrecise := by
  constructor
  · intro i s t r ht hr hok hw
    obtain ⟨-, he⟩ := exec_error ⟨t, ht, hr⟩ hok hw
    cases ht.symm.trans he
    rfl
  · intro c s t r ht hr hok hw
    obtain ⟨-, he⟩ := construct_error ⟨t, ht, hr⟩ hok hw
    cases ht.symm.trans he
    rfl

/-- Settles O20: a missing line decides the response, and no other construction answers CONFIG_MISSING_LINE. -/
theorem missingLineConstructionChangesNothing : Obligations.MissingLineConstructionChangesNothing := by
  intro c s t ht
  have hr : ¬ LengthOutOfRange c s := fun hr => by cases ht.symm.trans (construct_eq_refused.mpr ⟨hr, rfl⟩)
  rw [← missingMask_ne_zero]
  refine ⟨⟨fun hm => ?_, fun h => ?_⟩, fun hm => ?_⟩
  · cases ht.symm.trans (construct_missing hr hm)
    rfl
  · exact (construct_error ⟨t, ht, h⟩ (by simp) (by simp)).1
  · cases ht.symm.trans (construct_missing hr hm)
    exact ⟨rfl, rfl, rfl, rfl, rfl, rfl⟩

/-- Settles O21: the range check is the only refusal, and every command word is answered. -/
theorem onlyOutOfRangeLengthIsRefused : Obligations.OnlyOutOfRangeLengthIsRefused := by
  refine ⟨fun c s => by simp [construct_eq_refused], fun s why h => ?_⟩
  cases hp : s.pending with
  | nil => simp [step, hp, noMove] at h
  | cons m rest =>
    cases m with
    | command w =>
      obtain ⟨t, ht, -⟩ := runWord_answers w { s with pending := rest }
      rw [step_of_command hp, thenNext_eq_refused, ht] at h
      cases h
    | construct c =>
      rw [step_of_construct hp, thenNext_eq_refused, construct_eq_refused] at h
      exact ⟨c, rest, rfl, h.1⟩

/-- Settles O11: the step answers once, and each check that decides says which response that is. -/
theorem checksRunInTheirOrder : Obligations.ChecksRunInTheirOrder := by
  constructor
  · intro s w rest hp
    obtain ⟨r, hr⟩ := runWord_answers_once w { s with pending := rest }
    obtain ⟨t, ht, hresp⟩ := step_answers_of_runWord hp hr
    refine ⟨t, r, ht, hresp, fun hill => ?_, fun hleg hc => ?_, fun _ hc hclear hmis => ?_, fun i hd hc hal => ?_⟩
    · rw [runWord_of_illegalWord hill] at hr
      exact hr.unique (answers_respond _ _ _)
    · rw [runWord_not_constructed (s := { s with pending := rest }) hleg hc] at hr
      exact hr.unique (answers_respond _ _ _)
    · subst hclear
      rw [runWord_clear_misaligned (s := { s with pending := rest }) hc hmis] at hr
      exact hr.unique (answers_respond _ _ _)
    · rw [runWord_runs (s := { s with pending := rest }) hd hc hal] at hr
      refine ⟨fun hw => hr.unique (answers_endWrites_succeeds ?_), fun j e hj he =>
        hr.unique (answers_endWrites_fails hj he)⟩
      rw [commandWrites_length]
      exact hw
  · intro s c rest hp
    refine ⟨fun hout => ?_, fun hin => ?_⟩
    · rw [step_of_construct hp, thenNext_eq_refused, construct_eq_refused]
      exact ⟨hout, rfl⟩
    · obtain ⟨r, hr⟩ := construct_answers_once (s := { s with pending := rest }) hin
      obtain ⟨t, ht, hresp⟩ := step_answers_of_construct hp hr
      refine ⟨t, r, ht, hresp, fun hm => ?_, fun hm => ?_⟩ <;> rw [← missingMask_eq_zero] at hm
      · rw [construct_missing (s := { s with pending := rest }) hin hm] at hr
        exact hr.unique (answers_respond _ _ _)
      · rw [construct_runs (s := { s with pending := rest }) hin hm] at hr
        exact ⟨fun hw => hr.unique (answers_of_newEngine (answers_endWrites_succeeds hw)),
          fun j e hj he => hr.unique (answers_of_newEngine (answers_endWrites_fails hj he))⟩

end Sys2Proof.Machine
end

section
/-! One write and the reference observer: the stages where the observer applies (60_exceptions R172 to R176), outside
its conditions (R171), and while a failed write is outstanding (R178). -/

namespace Sys2Proof.Machine

/-! ## A write as the stages see it -/

section

variable (e : Event) (s : State)

theorem anyStage_writeLine : anyStage (writeLine e s) = (List.range s.par.devLen).map (Config.freeStage s.draws) := by
  simp [anyStage]

theorem anyOut_writeLine : anyOut (writeLine e s) = (List.range s.par.devLen).map (Config.freeOut s.draws) := by
  simp [anyOut]

theorem anyOutputs_writeLine :
    anyOutputs (writeLine e s) = (List.range s.par.devLen).map (Config.freeOutput s.draws) := by
  simp [anyOutputs]

theorem anyDevice_writeLine (unsettled : Option Nat) :
    anyDevice unsettled (writeLine e s) = freeDevice s.draws s.par.devLen unsettled := by
  rw [anyDevice, anyStage_writeLine, anyOut_writeLine, anyOutputs_writeLine, freeDevice]

theorem anyStage_writeLine_getElem? {p : Nat} (hp : p < s.par.devLen) :
    (anyStage (writeLine e s))[p]? = some (Config.freeStage s.draws p) := by
  rw [anyStage_writeLine, List.getElem?_map, List.getElem?_range hp, Option.map_some]

/-- A write of CLK leaves SER, whose level the edge shifts in. -/
theorem incomingBit_writeLine_clk (v : Bool) :
    incomingBit (writeLine ⟨.clk, v⟩ s) = (level s .ser).getD (Config.freeStage s.draws 0) := by
  rw [incomingBit, writeLine_clk_ser, writeLine_draws]
  rfl

end

/-! ## What an edge is, and is not -/

section

variable {e : Event} {prev : Option Bool} {s : State}

theorem clockEdge_iff : clockEdge e prev = true ↔ e = ⟨.clk, true⟩ ∧ prev = some false := by simp [clockEdge]

theorem latchEdge_iff : latchEdge e prev = true ↔ e = ⟨.lat, true⟩ ∧ prev = some false := by simp [latchEdge]

/-- The write shifts S in, or forgets it: CLK is written true at a level that is not known to be true. -/
abbrev ChangesStage (e : Event) (prev : Option Bool) : Prop := e = ⟨.clk, true⟩ ∧ prev ≠ some true

theorem not_clockEdge_of_not_changesStage (h : ¬ ChangesStage e prev) :
    clockEdge e prev = false ∧ ¬ (e = ⟨.clk, true⟩ ∧ prev = none) := by
  rw [← Bool.not_eq_true, clockEdge_iff]
  constructor <;> rintro ⟨he, rfl⟩ <;> exact h ⟨he, by simp⟩

theorem stageAfter_clockEdge : stageAfter ⟨.clk, true⟩ (some false) s =
    shiftStage s.par.devLen (incomingBit s) s.dev.stage := if_pos rfl

theorem stageAfter_unknown : stageAfter ⟨.clk, true⟩ none s = anyStage s := rfl

theorem stageAfter_keep (h : ¬ ChangesStage e prev) : stageAfter e prev s = s.dev.stage := by
  obtain ⟨hedge, hunknown⟩ := not_clockEdge_of_not_changesStage h
  simp [stageAfter, hedge, hunknown]

theorem edgesAfter_clockEdge (k : Nat) : edgesAfter ⟨.clk, true⟩ (some false) k = k + 1 := rfl

theorem edgesAfter_unknown (k : Nat) : edgesAfter ⟨.clk, true⟩ none k = 0 := rfl

theorem edgesAfter_keep (h : ¬ ChangesStage e prev) (k : Nat) : edgesAfter e prev k = k := by
  obtain ⟨hedge, hunknown⟩ := not_clockEdge_of_not_changesStage h
  simp [edgesAfter, hedge, hunknown]

theorem outAfter_latchEdge : outAfter ⟨.lat, true⟩ (some false) s = s.dev.stage := rfl

theorem outAfter_unknown : outAfter ⟨.lat, true⟩ none s = anyOut s := rfl

/-- Only a write of LAT changes Q. -/
theorem outAfter_keep (h : e.line ≠ .lat) : outAfter e prev s = s.dev.out := by
  have hne : e ≠ ⟨.lat, true⟩ := fun he => h (by rw [he])
  simp [outAfter, latchEdge, hne]

end

/-! ## The positions of the shift stage -/

/-- The bit entering at position 0 and the others one along (R172). -/
theorem shiftStage_getElem?_zero {n : Nat} (hn : 0 < n) (b : Bool) (stage : List Bool) :
    (shiftStage n b stage)[0]? = some b := by
  rw [shiftStage, List.getElem?_take_of_lt hn, List.getElem?_cons_zero]

theorem shiftStage_getElem?_succ {n p : Nat} (hp : p + 1 < n) (b : Bool) (stage : List Bool) :
    (shiftStage n b stage)[p + 1]? = stage[p]? := by
  rw [shiftStage, List.getElem?_take_of_lt hp, List.getElem?_cons_succ]

theorem shiftStage_length {n : Nat} {stage : List Bool} (h : stage.length = n) (b : Bool) :
    (shiftStage n b stage).length = n := by
  simp [shiftStage, h]

section

variable {α : Type} {xs ys : List α} {k p : Nat}

/-- A list whose positions from `k` on are replaced by those of another. -/
theorem getElem?_take_append_drop_of_lt (hp : p < k) (hlen : p < xs.length) :
    (xs.take k ++ ys.drop k)[p]? = xs[p]? := by
  rw [List.getElem?_append_left (by rw [List.length_take]; omega), List.getElem?_take_of_lt hp]

theorem getElem?_take_append_drop_of_le (hp : k ≤ p) (hlen : p < xs.length) :
    (xs.take k ++ ys.drop k)[p]? = ys[p]? := by
  have hk : (xs.take k).length = k := by
    rw [List.length_take]
    omega
  rw [List.getElem?_append_right (by omega), hk, List.getElem?_drop, Nat.add_sub_cancel' hp]

end

/-! ## A device with no failed write outstanding -/

section

variable {e : Event} {s : State}

/-- A rising edge of CLK shifts the level of SER in (R172). -/
theorem lineWrite_clockEdge (hk : DeviceKnown s) (hf : writeFails s = false) (hl : level s .clk = some false) :
    (lineWrite ⟨.clk, true⟩ s).dev.stage =
        shiftStage s.par.devLen ((level s .ser).getD (Config.freeStage s.draws 0)) s.dev.stage ∧
      (lineWrite ⟨.clk, true⟩ s).dev.out = s.dev.out := by
  rw [lineWrite_dev_known hk hf, settledDevice, hl, stageAfter_clockEdge, outAfter_keep (by decide),
    incomingBit_writeLine_clk, writeLine_par, writeLine_dev]
  exact ⟨rfl, rfl⟩

/-- A rising edge of LAT loads the output stage (R173). -/
theorem lineWrite_latchEdge (hk : DeviceKnown s) (hf : writeFails s = false) (hl : level s .lat = some false) :
    (lineWrite ⟨.lat, true⟩ s).dev.out = s.dev.stage ∧ (lineWrite ⟨.lat, true⟩ s).dev.stage = s.dev.stage := by
  rw [lineWrite_dev_known hk hf, settledDevice, hl, stageAfter_keep (by simp), outAfter_latchEdge, writeLine_dev]
  exact ⟨rfl, rfl⟩

theorem lineWrite_clock_unknown (hk : DeviceKnown s) (hf : writeFails s = false) (hl : level s .clk = none) :
    (lineWrite ⟨.clk, true⟩ s).dev.stage = (List.range s.par.devLen).map (Config.freeStage s.draws) ∧
      (lineWrite ⟨.clk, true⟩ s).dev.out = s.dev.out := by
  rw [lineWrite_dev_known hk hf, settledDevice, hl, stageAfter_unknown, outAfter_keep (by decide), anyStage_writeLine,
    writeLine_dev]
  exact ⟨rfl, rfl⟩

theorem lineWrite_latch_unknown (hk : DeviceKnown s) (hf : writeFails s = false) (hl : level s .lat = none) :
    (lineWrite ⟨.lat, true⟩ s).dev.out = (List.range s.par.devLen).map (Config.freeOut s.draws) ∧
      (lineWrite ⟨.lat, true⟩ s).dev.stage = s.dev.stage := by
  rw [lineWrite_dev_known hk hf, settledDevice, hl, stageAfter_keep (by simp), outAfter_unknown, anyOut_writeLine,
    writeLine_dev]
  exact ⟨rfl, rfl⟩

/-- The outputs after a write are those of the stage it leaves and of OE as it leaves it (R176). -/
theorem lineWrite_outputs_eq (hk : DeviceKnown s) (hf : writeFails s = false) :
    (lineWrite e s).dev.outputs = outputsFor (lineWrite e s).dev.out (writeLine e s) := by
  rw [lineWrite_dev_known hk hf, settledDevice]

/-- The levels are those of the line side of the write. -/
theorem level_writeLine_eq (l : Line) : level (writeLine e s) l = level (lineWrite e s) l := rfl

theorem outputsFor_disabled (hp : s.cfg.present.oe = true) (hl : level s .oe = some true) (out : List Bool) :
    outputsFor out s = List.replicate out.length .z := by
  change s.line.oe.lvl = some true at hl
  simp [outputsFor, hp, hl]

theorem outputsFor_unknown (hp : s.cfg.present.oe = true) (hl : level s .oe = none) (out : List Bool) :
    outputsFor out s = anyOutputs s := by
  change s.line.oe.lvl = none at hl
  simp [outputsFor, hp, hl]

end

/-- Settles O47: the two edges, and the writes that are none. -/
theorem edgesShiftAndLoad : Obligations.EdgesShiftAndLoad := by
  intro e s hk hf hsized
  refine ⟨?_, ?_, fun h => lineWrite_dev_keep hk hf (by tauto)⟩
  · rintro rfl hl
    obtain ⟨hstage, hout⟩ := lineWrite_clockEdge hk hf hl
    rw [hstage]
    refine ⟨hout, fun b hb hn => ?_, fun hb hn => ?_, fun p hp => shiftStage_getElem?_succ hp _ _,
      shiftStage_length hsized.1 _⟩ <;> rw [shiftStage_getElem?_zero hn, hb] <;> rfl
  · rintro rfl hl
    exact lineWrite_latchEdge hk hf hl

/-- Settles O48, by OE absent, at false, at true and unknown. -/
theorem outputsFollowStageAndOe : Obligations.OutputsFollowStageAndOe := by
  intro e s hk hf
  rw [lineWrite_outputs_eq hk hf, ← level_writeLine_eq, ← writeLine_cfg e s]
  exact ⟨fun hp => outputsFor_of_enabled (.inl hp) _, fun _ hl => outputsFor_of_enabled (.inr hl) _,
    fun hp hl => outputsFor_disabled hp hl _,
    fun hp hl => (outputsFor_unknown hp hl _).trans (anyOutputs_writeLine e s)⟩

/-- Settles O51: each edge from an unknown level, and the rest levels of the invariant. -/
theorem edgeFromUnknownLevelForgetsTheStage : Obligations.EdgeFromUnknownLevelForgetsTheStage := by
  refine ⟨fun s hk hf => ⟨lineWrite_clock_unknown hk hf, lineWrite_latch_unknown hk hf⟩, fun s hs hf hc => ?_⟩
  obtain ⟨-, hclk, hlat⟩ := hs.rest hf hc
  simp [hclk, hlat]

/-! ## Outside the observer's conditions -/

/-- Failed or not, the write leaves everything at any value (R155, R171); only the count of edges differs. -/
theorem lineWrite_dev_outside {e : Event} {s : State} (h : observerApplies s = false) :
    (lineWrite e s).dev =
      freeDevice s.draws s.par.devLen (if writeFails s then some 0 else forgetEdges s.dev.unsettled) := by
  rw [lineWrite_dev]
  split
  · exact anyDevice_writeLine e s _
  · rw [observe, observerApplies_writeLine_false h, if_neg Bool.false_ne_true, writeLine_dev]
    exact anyDevice_writeLine e s _

/-- Settles O49. -/
theorem observerClaimsNothingOutsideItsConditions : Obligations.ObserverClaimsNothingOutsideItsConditions :=
  fun _ _ h => ⟨_, lineWrite_dev_outside h⟩

/-! ## A device with a failed write outstanding (R178) -/

section

variable {e : Event} {s : State} {k : Nat}

/-- The latch edge that re-establishes the device. -/
abbrev Reestablishes (e : Event) (k : Nat) (s : State) : Prop :=
  e = ⟨.lat, true⟩ ∧ level s .lat = some false ∧ s.par.devLen ≤ k

theorem latchEdge_level : latchEdge e (level s e.line) = true ↔ e = ⟨.lat, true⟩ ∧ level s .lat = some false := by
  rw [latchEdge_iff]
  constructor <;> rintro ⟨rfl, hl⟩ <;> exact ⟨rfl, hl⟩

theorem lineWrite_dev_unsettled (ha : observerApplies s = true) (hu : s.dev.unsettled = some k)
    (hf : writeFails s = false) (h : ¬ Reestablishes e k s) :
    (lineWrite e s).dev =
      { stage := (stageAfter e (level s e.line) (writeLine e s)).take (edgesAfter e (level s e.line) k) ++
          (anyStage (writeLine e s)).drop (edgesAfter e (level s e.line) k)
        out := anyOut (writeLine e s)
        outputs := anyOutputs (writeLine e s)
        unsettled := some (edgesAfter e (level s e.line) k) } := by
  rw [lineWrite_dev_applies ha hf, hu]
  simp only [unsettledDevice, latchEdge_level, writeLine_par]
  rw [if_neg (by tauto)]

theorem lineWrite_dev_reestablished (ha : observerApplies s = true) (hu : s.dev.unsettled = some k)
    (hf : writeFails s = false) (h : Reestablishes e k s) :
    (lineWrite e s).dev = settledDevice e (level s e.line) (writeLine e s) := by
  obtain ⟨rfl, hl, hk⟩ := h
  rw [lineWrite_dev_applies ha hf, hu]
  simp [unsettledDevice, latchEdge, hl, hk]

/-- One more edge counted, and one more position known. -/
theorem lineWrite_clockEdge_unsettled (ha : observerApplies s = true) (hu : s.dev.unsettled = some k)
    (hf : writeFails s = false) (hl : level s .clk = some false) :
    (lineWrite ⟨.clk, true⟩ s).dev.unsettled = some (k + 1) ∧
      (lineWrite ⟨.clk, true⟩ s).dev.stage =
        (shiftStage s.par.devLen ((level s .ser).getD (Config.freeStage s.draws 0)) s.dev.stage).take (k + 1) ++
          (anyStage (writeLine ⟨.clk, true⟩ s)).drop (k + 1) := by
  rw [lineWrite_dev_unsettled ha hu hf (by simp), hl, edgesAfter_clockEdge, stageAfter_clockEdge,
    incomingBit_writeLine_clk, writeLine_par, writeLine_dev]
  exact ⟨rfl, rfl⟩

/-- The count starts again, and no position is known. -/
theorem lineWrite_clock_unknown_unsettled (ha : observerApplies s = true) (hu : s.dev.unsettled = some k)
    (hf : writeFails s = false) (hl : level s .clk = none) :
    (lineWrite ⟨.clk, true⟩ s).dev.unsettled = some 0 ∧
      (lineWrite ⟨.clk, true⟩ s).dev.stage = (List.range s.par.devLen).map (Config.freeStage s.draws) := by
  rw [lineWrite_dev_unsettled ha hu hf (by simp), hl, edgesAfter_unknown, anyStage_writeLine]
  exact ⟨rfl, rfl⟩

/-- The count is kept, and so are the positions shifted in. -/
theorem lineWrite_keep_unsettled (ha : observerApplies s = true) (hu : s.dev.unsettled = some k)
    (hf : writeFails s = false) (hno : ¬ Reestablishes e k s) (hkeep : ¬ ChangesStage e (level s e.line)) :
    (lineWrite e s).dev.unsettled = some k ∧
      (lineWrite e s).dev.stage = s.dev.stage.take k ++ (anyStage (writeLine e s)).drop k := by
  rw [lineWrite_dev_unsettled ha hu hf hno, edgesAfter_keep hkeep, stageAfter_keep hkeep, writeLine_dev]
  exact ⟨rfl, rfl⟩

end

/-- Settles O50: by whether the write re-establishes the device, and, where it does not, by what CLK does. -/
theorem failedWriteStaysOutstandingUntilReestablished :
    Obligations.FailedWriteStaysOutstandingUntilReestablished := by
  intro e s k ha hu hsized hf
  have hlen := hsized.1
  refine ⟨fun hno => ⟨?_, ?_, ?_, ?_, fun hkeep => ?_⟩, ?_⟩
  · rw [lineWrite_dev_unsettled ha hu hf hno, anyOut_writeLine]
  · rw [lineWrite_dev_unsettled ha hu hf hno, anyOutputs_writeLine]
  · rintro rfl hl
    have hshifted := shiftStage_length hlen ((level s .ser).getD (Config.freeStage s.draws 0))
    obtain ⟨hcount, hstage⟩ := lineWrite_clockEdge_unsettled ha hu hf hl
    rw [hstage]
    refine ⟨hcount, fun b hb hn => ?_, fun p hpk hp => ?_, fun p hpk hp => ?_⟩
    · rw [getElem?_take_append_drop_of_lt (by omega) (by omega), shiftStage_getElem?_zero hn, hb, Option.getD_some]
    · rw [getElem?_take_append_drop_of_lt (by omega) (by omega), shiftStage_getElem?_succ hp]
    · rw [getElem?_take_append_drop_of_le (by omega) (by omega), anyStage_writeLine_getElem? _ _ hp]
  · rintro rfl hl
    exact lineWrite_clock_unknown_unsettled ha hu hf hl
  · have hkeep' : ¬ ChangesStage e (level s e.line) := by
      rintro ⟨rfl, hl⟩
      exact hkeep ⟨rfl, hl⟩
    obtain ⟨hcount, hstage⟩ := lineWrite_keep_unsettled ha hu hf hno hkeep'
    rw [hstage]
    refine ⟨hcount, fun p hpk hp => ?_, fun p hpk hp => ?_⟩
    · rw [getElem?_take_append_drop_of_lt hpk (by omega)]
    · rw [getElem?_take_append_drop_of_le hpk (by omega), anyStage_writeLine_getElem? _ _ hp]
  · rintro rfl hl hk
    rw [lineWrite_dev_reestablished ha hu hf ⟨rfl, hl, hk⟩, settledDevice, hl, stageAfter_keep (by simp),
      outAfter_latchEdge, writeLine_dev]
    exact ⟨rfl, rfl, rfl⟩

end Sys2Proof.Machine
end

section
/-! Power-up (70_reset_and_hazards R203): each line as one that no write has reached, and the invariant there. -/

namespace Sys2Proof.Machine

section

variable (p : Params) (pins : PerLine Nat) (pol : PerLine Bool) (var : PerLine LineVariant) (l : Line)

@[simp] theorem powerUp_line_get : (State.powerUp p pins pol var).line.get l =
    LineState.powerUp (pins.get l) (pol.get l) (var.get l) := by
  cases l <;> rfl

@[simp] theorem level_powerUp : level (State.powerUp p pins pol var) l = none := by
  rw [level, powerUp_line_get, LineState.powerUp]

@[simp] theorem phys_powerUp : phys (State.powerUp p pins pol var) l = none := by
  rw [phys, level_powerUp, Option.map_none]

theorem drained_powerUp : drained (State.powerUp p pins pol var) = State.powerUp p pins pol var := rfl

theorem deviceSized_powerUp : DeviceSized (State.powerUp p pins pol var) := by
  simp [DeviceSized, State.powerUp, Device.powerUp]

/-- No write has been issued, landed or queued. -/
theorem lineInv_powerUp : LineInv (State.powerUp p pins pol var) where
  sized := deviceSized_powerUp p pins pol var
  levels := fun _ l => level_powerUp p pins pol var l
  pins := fun l _ => by rw [drained_powerUp, powerUp_line_get, phys_powerUp, LineState.powerUp]
  fakes := fun l _ => ⟨by rw [powerUp_line_get, LineState.powerUp], rfl⟩
  direct := fun _ => rfl

/-- What `StateInv` asks of a constructed engine asks nothing of a machine without one. -/
theorem stateInv_powerUp : StateInv (State.powerUp p pins pol var) :=
  (stateInv_iff _).mpr ⟨nofun, lineInv_powerUp p pins pol var, fun _ => nofun⟩

end

/-- Settles O18: each line by `powerUp_line_get`, and State.reset as one wiring of power-up. -/
theorem powerUpHasNoEngineAndUnknownLevels : Obligations.PowerUpHasNoEngineAndUnknownLevels := by
  refine ⟨fun p pins pol var => ⟨rfl, level_powerUp p pins pol var, fun l => ?_, fun l => ?_, fun l => ?_, rfl, rfl⟩,
    rfl, level_powerUp _ _ _ _, rfl, rfl⟩ <;> rw [powerUp_line_get, LineState.powerUp]

/-- Settles O45: State.reset is one wiring of power-up. -/
theorem powerUpMeetsTheInvariant : Obligations.PowerUpMeetsTheInvariant :=
  ⟨stateInv_powerUp, stateInv_powerUp _ _ _ _⟩

end Sys2Proof.Machine
end

section
/-! Construction (70_reset_and_hazards R200 to R204): the engine it brings up, the engine a failed write of it leaves,
that nothing else changes the configuration, and the number of writes of every operation (R214). -/

namespace Sys2Proof.Machine

/-! ## The record and the writes of a construction -/

/-- The mask written out line by line (60_exceptions R151). -/
theorem missingMask_eq_append (present : BitVec 4) : missingMask present =
    BitVec.ofBool (!present.getLsbD 2) ++ BitVec.ofBool (!present.getLsbD 1) ++
      BitVec.ofBool (!present.getLsbD 0) := by
  revert present
  decide

theorem presentLines_of_mandatory {present : BitVec 4} (h : missingMask present = 0#3) :
    presentLines present = ⟨true, true, true, present.getLsbD 3⟩ := by
  obtain ⟨hser, hclk, hlat⟩ := (missingMask_eq_zero present).mp h
  rw [presentLines, hser, hclk, hlat]

theorem constructWrites_length (b : Bool) : (constructWrites b).length = if b then 4 else 3 := by
  cases b <;> rfl

/-- No write of a construction is a rising edge (60_exceptions R172, R173). -/
theorem constructWrites_no_edge (b : Bool) :
    ∀ e ∈ constructWrites b, e.value = false ∨ e.line = .ser ∨ e.line = .oe := by
  cases b <;> decide

theorem constructWrites_absent_ne_oe : ∀ e ∈ constructWrites false, Line.oe ≠ e.line := by decide

section

variable {r : ConstructRecord} {s : State}

theorem not_lengthOutOfRange (hmin : 1 ≤ r.bitLength.toNat) (hmax : r.bitLength.toNat ≤ s.par.bitLengthMax.toNat) :
    ¬ LengthOutOfRange r s := by
  simp only [LengthOutOfRange]
  omega

/-- A construction whose checks pass and whose writes do not fail. -/
theorem construct_succeeds (hr : ¬ LengthOutOfRange r s) (hm : missingMask r.present = 0#3)
    (hw : WritesSucceed (constructWrites (r.present.getLsbD 3)).length s) :
    construct r s =
      .next (respond .ok 0#32 (writeAll (constructWrites (r.present.getLsbD 3)) (newEngine r s))) := by
  rw [construct_runs hr hm, runWrites_succeeds (s := newEngine r s) hw]
  rfl

end

section

variable {b : Bool} {s : State}

theorem atRest_writeAll_construct (hw : WritesSucceed (constructWrites b).length s) :
    AtRest (writeAll (constructWrites b) s) := by
  have hrun := runWrites_succeeds hw
  have hrest := atRest_runWrites_construct (b := b) (s := s) (by rw [hrun])
  rwa [hrun] at hrest

theorem level_oe_writeAll_construct (hw : WritesSucceed (constructWrites true).length s) :
    level (writeAll (constructWrites true) s) .oe = some true :=
  level_writeAll_last (ws := constructWrites true) hw .oe

end

/-- Settles O19: refused, reported, or the writes carried out on the new engine. -/
theorem constructionBringsUpTheEngine : Obligations.ConstructionBringsUpTheEngine := by
  intro r s
  refine ⟨fun hr => construct_eq_refused.mpr ⟨hr, rfl⟩, fun hmin hmax hm => ?_, fun hmin hmax hser hclk hlat hw => ?_⟩
  · rw [← missingMask_eq_zero] at hm
    rw [construct_missing (not_lengthOutOfRange hmin hmax) hm, missingMask_eq_append]
  · have hm := (missingMask_eq_zero r.present).mpr ⟨hser, hclk, hlat⟩
    rw [← constructWrites_length] at hw
    have hw' : WritesSucceed (constructWrites (r.present.getLsbD 3)).length (newEngine r s) := hw
    refine ⟨_, construct_succeeds (not_lengthOutOfRange hmin hmax) hm hw, by simp, ?_, ?_, by simp, ?_, fun hoe => ?_,
      fun hoe => ?_, fun hk => ?_⟩
    · rw [respond_cfg, writeAll_cfg, newEngine_cfg, presentLines_of_mandatory hm]
    · rw [respond_trace, writeAll_trace, newEngine_trace, constructWrites, List.append_assoc]
    · simpa only [AtRest, level_respond] using atRest_writeAll_construct hw'
    · rw [level_respond]
      rw [hoe] at hw' ⊢
      exact level_oe_writeAll_construct hw'
    · rw [respond_line]
      rw [hoe] at hw' ⊢
      exact writeAll_line_other hw' constructWrites_absent_ne_oe
    · obtain ⟨hstage, hout, -⟩ := writeAll_dev_keep hk hw' (constructWrites_no_edge _)
      exact ⟨hstage, hout⟩

/-- Settles O39: the engine is set up before the first write, and the list of writes stops at the one that fails. -/
theorem failedConstructionWriteLeavesEngineConstructed :
    Obligations.FailedConstructionWriteLeavesEngineConstructed := by
  intro r s j e hmin hmax hser hclk hlat hj he
  have hm := (missingMask_eq_zero r.present).mpr ⟨hser, hclk, hlat⟩
  have hj' : FirstFailureAt j (newEngine r s) := hj
  obtain ⟨t, ht, htrace, hresp, hlevel, -, hdev, hcon, hcfg⟩ := endWrites_failed hj' he 0#32
  rw [newEngine_cfg, presentLines_of_mandatory hm] at hcfg
  exact ⟨t, (construct_runs (not_lengthOutOfRange hmin hmax) hm).trans ht, hcon, hcfg, htrace, hresp, hlevel, hdev⟩

/-! ## Who changes the configuration (R202) -/

theorem runWord_keeps_config {w : CmdWord} {s t : State} (h : runWord w s = .next t) :
    t.cfg = s.cfg ∧ t.constructed = s.constructed := by
  cases hd : decode w with
  | instr i =>
    rw [runWord_of_instr hd] at h
    obtain ⟨⟨-, hcon, hcfg, -⟩, -⟩ := exec_frame h
    exact ⟨hcfg, hcon⟩
  | illegal why =>
    rw [runWord_of_illegal hd] at h
    cases h
    exact ⟨rfl, rfl⟩

/-- A construction keeps the configuration, or the engine has that of the record. -/
theorem construct_config {r : ConstructRecord} {s t : State} (h : construct r s = .next t) :
    (t.cfg = s.cfg ∧ t.constructed = s.constructed) ∨
      (t.cfg = ⟨presentLines r.present, r.bitLength⟩ ∧ t.constructed = true) := by
  obtain ⟨rfl, -⟩ | ⟨st, d, rfl, -⟩ := construct_next h
  · exact .inl ⟨rfl, rfl⟩
  · exact .inr ⟨by simp, by simp⟩

theorem construct_keeps_wiring {r : ConstructRecord} {s t : State} (h : construct r s = .next t) (l : Line) :
    (t.line.get l).pinId = (s.line.get l).pinId ∧ (t.line.get l).activeHigh = (s.line.get l).activeHigh := by
  obtain ⟨rfl, -⟩ | ⟨st, d, rfl, -⟩ := construct_next h <;> simp

/-- Settles O22: a command word keeps the configuration, and a construction that does not sets that of its record. -/
theorem onlyConstructionChangesConfiguration : Obligations.OnlyConstructionChangesConfiguration := by
  refine ⟨fun s t h hne => ?_, fun r s t h => ?_, fun s t h => (step_keeps_wiring h).1⟩
  · obtain ⟨-, hgrows, -⟩ := traceOnlyGrows
    have htrace := hgrows s t h
    obtain ⟨w, rest, u, -, hu, rfl⟩ | ⟨r, rest, u, hp, hu, rfl⟩ := step_next h
    · obtain ⟨hcfg, hcon⟩ := runWord_keeps_config hu
      simp [endCommand, hcfg, hcon] at hne
    · obtain ⟨hcfg, hcon⟩ | ⟨hcfg, hcon⟩ := construct_config hu
      · simp [hcfg, hcon] at hne
      · exact ⟨r, rest, hp, by simp [hcon], by simp [hcfg], htrace⟩
  · obtain ⟨hpar, -⟩ := construct_frame h
    exact ⟨hpar, construct_keeps_wiring h⟩

/-! ## The number of writes of every operation (R214) -/

theorem runWrites_trace_length_le (ws : List Event) (s : State) :
    (runWrites ws s).1.trace.length ≤ s.trace.length + ws.length := by
  obtain ⟨es, hpre, htrace⟩ := runWrites_trace_prefix ws s
  rw [htrace, List.length_append]
  exact Nat.add_le_add_left hpre.length_le _

section

variable {i : Instr} {s t : State}

theorem exec_trace_length_succeeds (hc : s.constructed = true) (hp : Precondition i s)
    (hw : WritesSucceed (successWrites i s) s) :
    ∃ t, exec i s = .next t ∧ t.trace.length = s.trace.length + successWrites i s ∧
      t.responses = s.responses ++ [⟨.ok, successData i s⟩] := by
  rw [← commandWrites_length] at hw ⊢
  exact ⟨_, exec_succeeds hc hp hw, by simp, by simp⟩

theorem exec_trace_unchecked (h : s.constructed = false ∨ ¬ Precondition i s) :
    ∃ t, exec i s = .next t ∧ t.trace = s.trace := by
  obtain ⟨-, he⟩ | ⟨-, -, -, he⟩ | ⟨hc, hp, -⟩ := exec_cases i s
  · exact ⟨_, he, rfl⟩
  · exact ⟨_, he, rfl⟩
  · obtain hc' | hp' := h
    · rw [hc] at hc'
      cases hc'
    · exact absurd hp hp'

theorem exec_trace_length_le (h : exec i s = .next t) : t.trace.length ≤ s.trace.length + successWrites i s := by
  obtain ⟨-, -, -, -, -, ⟨es, hpre, htrace⟩, -⟩ := exec_frame h
  rw [htrace, List.length_append, ← commandWrites_length]
  exact Nat.add_le_add_left hpre.length_le _

end

section

variable {c : ConstructRecord} {s t : State}

theorem construct_trace_length_ok (h : construct c s = .next t) (hok : t.responses = s.responses ++ [⟨.ok, 0#32⟩]) :
    t.trace.length = s.trace.length + (constructWrites (c.present.getLsbD 3)).length := by
  obtain ⟨rfl, hn⟩ := construct_ok h hok
  obtain ⟨hrun, -⟩ := runWrites_none hn
  rw [hrun]
  simp

theorem construct_trace_missing {data : Data} (h : construct c s = .next t)
    (hr : t.responses = s.responses ++ [⟨.configMissingLine, data⟩]) : t.trace = s.trace := by
  obtain ⟨-, he⟩ := construct_error ⟨t, h, hr⟩ (by simp) (by simp)
  cases h.symm.trans he
  rfl

theorem construct_trace_length_le (h : construct c s = .next t) :
    t.trace.length ≤ s.trace.length + (constructWrites (c.present.getLsbD 3)).length := by
  obtain ⟨rfl, -⟩ | ⟨st, d, rfl, -⟩ := construct_next h
  · exact Nat.le_add_right _ _
  · exact runWrites_trace_length_le _ (newEngine c s)

end

/-- Settles O32, operation by operation. -/
theorem writeCountsAreTheTables : Obligations.WriteCountsAreTheTables := by
  refine ⟨fun i s => ⟨exec_trace_length_succeeds, exec_trace_unchecked, fun t => exec_trace_length_le⟩,
    fun s w hw => ⟨_, runWord_of_illegalWord hw s, rfl⟩, fun c s t h => ?_⟩
  rw [← constructWrites_length]
  exact ⟨construct_trace_length_ok h, fun ⟨_, hr⟩ => construct_trace_missing h hr, construct_trace_length_le h⟩

end Sys2Proof.Machine
end

section
/-! The attached device under SHIFT_CLEAR (70_reset_and_hazards R209, R211): after `k` latched zero bytes both stages
hold `8 * k` zeros in front of the earlier shift stage, as far as the chain reaches. -/

namespace Sys2Proof.Machine

/-! ## The writes of the first zero bytes -/

/-- The writes of `k` latched zero bytes. -/
def zeroByteWrites (k : Nat) : List Event := (List.replicate k (byteWrites true 0#8)).flatten

theorem clearWrites_eq_zeroByteWrites (n : Nat) : clearWrites n = zeroByteWrites (n / 8) := rfl

theorem zeroByteWrites_succ (k : Nat) : zeroByteWrites (k + 1) = byteWrites true 0#8 ++ zeroByteWrites k := rfl

theorem zeroByteWrites_one : zeroByteWrites 1 = byteWrites true 0#8 := List.append_nil _

theorem zeroByteWrites_length (k : Nat) : (zeroByteWrites k).length = 34 * k := by
  simp [zeroByteWrites, byteWrites_length, Nat.mul_comm]

theorem zeroByteWrites_add (j k : Nat) : zeroByteWrites (j + k) = zeroByteWrites j ++ zeroByteWrites k := by
  rw [zeroByteWrites, ← List.replicate_append_replicate, List.flatten_append]
  rfl

/-- Each zero byte takes 34 writes, so the first `34 * k` are those of the first `k` of them. -/
theorem clearWrites_take {n k : Nat} (hk : k ≤ n / 8) : (clearWrites n).take (34 * k) = zeroByteWrites k := by
  rw [clearWrites_eq_zeroByteWrites, ← Nat.add_sub_cancel' hk, zeroByteWrites_add,
    List.take_left' (zeroByteWrites_length k)]

theorem byteBits_zero_reverse : (byteBits 0#8).reverse = List.replicate 8 false := by decide

/-! ## Both stages after the first zero bytes -/

/-- A known chain at rest, both of whose stages hold `stage`. -/
structure Holds (stage : List Bool) (s : State) : Prop where
  known : DeviceKnown s
  atRest : AtRest s
  shift : s.dev.stage = stage
  out : s.dev.out = stage

section

variable {s : State}

/-- One latched zero byte: the bits enter in front, and the pulse loads them (R209). -/
theorem holds_zeroByte (hk : DeviceKnown s) (hr : AtRest s) (hw : WritesSucceed 34 s)
    (hsz : s.dev.stage.length ≤ s.par.devLen) :
    Holds ((List.replicate 8 false ++ s.dev.stage).take s.par.devLen) (writeAll (byteWrites true 0#8) s) := by
  obtain ⟨hstage, hout, hknown⟩ := latchedByte_dev (value := 0#8) hk hr hw hsz
  rw [byteBits_zero_reverse] at hstage hout
  exact ⟨hknown, atRest_byte hr hw, hstage, hout⟩

/-- By induction on the bytes: each puts eight more zeros in front. -/
theorem holds_zeroBytes {k : Nat} (hpos : 1 ≤ k) (hk : DeviceKnown s) (hr : AtRest s)
    (hw : WritesSucceed (34 * k) s) (hsz : s.dev.stage.length ≤ s.par.devLen) :
    Holds ((List.replicate (8 * k) false ++ s.dev.stage).take s.par.devLen) (writeAll (zeroByteWrites k) s) := by
  induction k, hpos using Nat.le_induction generalizing s with
  | base =>
    rw [zeroByteWrites_one]
    exact holds_zeroByte hk hr hw hsz
  | succ k _ ih =>
    have hfirst := holds_zeroByte hk hr (writesSucceed_mono (by omega) hw) hsz
    have hrest : WritesSucceed (34 * k) (writeAll (byteWrites true 0#8) s) :=
      writesSucceed_writeAll (writesSucceed_mono (by rw [byteWrites_length, if_pos rfl]; omega) hw)
    have hlast := ih hfirst.known hfirst.atRest hrest (by rw [hfirst.shift]; simp)
    rw [hfirst.shift, writeAll_par, take_append_take, ← List.append_assoc, List.replicate_append_replicate] at hlast
    rwa [zeroByteWrites_succ, writeAll_append]

end

/-- A position of a chain with `n` zeros moved in front of `stage`. -/
theorem getElem?_zeros_append {n p : Nat} (stage : List Bool) :
    (List.replicate n false ++ stage)[p]? = if p < n then some false else stage[p - n]? := by
  rw [List.getElem?_append, List.length_replicate, List.getElem?_replicate]
  split <;> rfl

/-- Settles O54: the first `k` zero bytes reach `8 * k` of the chain's positions. -/
theorem shiftClearShowsIntermediateContents : Obligations.ShiftClearShowsIntermediateContents := by
  rintro s k - hlen hpos hle hw hr hk ⟨hsz, -⟩
  have hreach : 8 * k ≤ s.par.devLen := by omega
  rw [clearWrites_take hle, runWrites_succeeds (by rwa [zeroByteWrites_length]),
    (holds_zeroBytes hpos hk hr hw hsz.le).out, List.take_append, List.length_replicate, List.take_replicate,
    Nat.min_eq_right hreach]

/-- Settles O55: the `N / 8` zero bytes, seen position by position. -/
theorem shiftClearClearsDeclaredLengthOnly : Obligations.ShiftClearClearsDeclaredLengthOnly := by
  rintro s hc hal hpos hw hr hk ⟨hsz, -⟩
  have hn : 8 * (s.cfg.bitLength.toNat / 8) = s.cfg.bitLength.toNat := by omega
  have hexec := exec_succeeds (i := .shiftClear) hc (fun _ => hal) (by rwa [commandWrites_length])
  have hholds := holds_zeroBytes (by omega) hk hr hw hsz.le
  rw [hn] at hholds
  refine ⟨_, hexec, by simp [successData], hholds.shift.trans hholds.out.symm, ?_, fun p hp hlow => ?_,
    fun p hp hhigh => ?_⟩ <;> rw [respond_dev, commandWrites, clearWrites_eq_zeroByteWrites, hholds.out]
  · rw [List.length_take, List.length_append, hsz]
    omega
  · rw [List.getElem?_take_of_lt hp, getElem?_zeros_append, if_pos hlow]
  · rw [List.getElem?_take_of_lt hp, getElem?_zeros_append, if_neg (by omega)]

end Sys2Proof.Machine
end

section
/-! Outputs disabled (70_reset_and_hazards R201): what brings them to high impedance, and what keeps them there. -/

namespace Sys2Proof.Machine

/-! ## Writes that ended without a failure -/

theorem runWrites_cons_of_none {e : Event} {es : List Event} {s : State} (hn : (runWrites (e :: es) s).2 = none) :
    writeFails s = false ∧ runWrites (e :: es) s = runWrites es (lineWrite e s) := by
  cases hf : writeFails s with
  | true => simp [runWrites, hf] at hn
  | false => simp [runWrites, hf]

/-- What every write that does not fail keeps, a list of writes without a failure keeps. -/
theorem runWrites_keeps_of_none {P : State → Prop} {ws : List Event}
    (hstep : ∀ e ∈ ws, ∀ s, writeFails s = false → P s → P (lineWrite e s)) {s : State} (h : P s)
    (hn : (runWrites ws s).2 = none) : P (runWrites ws s).1 := by
  induction ws generalizing s with
  | nil => exact h
  | cons e es ih =>
    obtain ⟨hf, hrun⟩ := runWrites_cons_of_none hn
    rw [hrun] at hn ⊢
    exact ih (fun e' he' => hstep e' (List.mem_cons_of_mem e he')) (hstep e List.mem_cons_self s hf h) hn

/-- A list of writes without a failure, cut in two. -/
theorem runWrites_append_of_none {us vs : List Event} {s : State} (hn : (runWrites (us ++ vs) s).2 = none) :
    (runWrites us s).2 = none ∧ runWrites (us ++ vs) s = runWrites vs (runWrites us s).1 := by
  induction us generalizing s with
  | nil => exact ⟨rfl, rfl⟩
  | cons e us ih =>
    obtain ⟨hf, hrun⟩ := runWrites_cons_of_none (es := us ++ vs) hn
    rw [List.cons_append, hrun] at hn ⊢
    simpa [runWrites, hf] using ih hn

theorem deviceKnown_runWrites {ws : List Event} {s : State} (hk : DeviceKnown s) (hn : (runWrites ws s).2 = none) :
    DeviceKnown (runWrites ws s).1 :=
  runWrites_keeps_of_none (fun _ _ _ hf hk => deviceKnown_lineWrite hk hf) hk hn

/-! ## One write -/

section

variable {e : Event} {s : State}

/-- A write that leaves OE at true disables the outputs (60_exceptions R176). -/
theorem outputsDisabled_lineWrite_of_level (hp : s.cfg.present.oe = true) (hk : DeviceKnown s)
    (hf : writeFails s = false) (hl : level (lineWrite e s) .oe = some true) : OutputsDisabled (lineWrite e s) := by
  refine ⟨by rwa [lineWrite_cfg], deviceKnown_lineWrite hk hf, hl, ?_⟩
  rw [lineWrite_outputs_eq hk hf]
  exact outputsFor_disabled (s := writeLine e s) (by rwa [writeLine_cfg]) hl _

/-- A write of any other line, or of true to OE, keeps the outputs disabled. -/
theorem outputsDisabled_lineWrite (he : e.line = .oe → e.value = true) (hf : writeFails s = false)
    (h : OutputsDisabled s) : OutputsDisabled (lineWrite e s) := by
  obtain ⟨hp, hk, hl, -⟩ := h
  refine outputsDisabled_lineWrite_of_level hp hk hf ?_
  rw [level_lineWrite]
  split
  · next hoe => rw [writtenLevel_succeeds hf, he hoe.symm]
  · exact hl

end

/-- The outputs are read from the parameters, the configuration, the polarities, the level of OE and the device. -/
theorem outputsDisabled_congr {s t : State} (h : OutputsDisabled s) (hp : t.par = s.par) (hc : t.cfg = s.cfg)
    (ha : ∀ l, (t.line.get l).activeHigh = (s.line.get l).activeHigh) (hl : level t .oe = level s .oe)
    (hd : t.dev = s.dev) : OutputsDisabled t := by
  obtain ⟨hoe, ⟨happlies, hsettled⟩, hlevel, hout⟩ := h
  exact ⟨by rwa [hc], ⟨observerApplies_congr happlies hp hc ha, by rwa [hd]⟩, by rwa [hl], by rwa [hd]⟩

theorem outputsDisabled_respond {s : State} (h : OutputsDisabled s) (status : Status) (data : Data) :
    OutputsDisabled (respond status data s) :=
  outputsDisabled_congr h rfl rfl (fun _ => rfl) rfl rfl

theorem outputsDisabled_endCommand {s : State} (h : OutputsDisabled s) : OutputsDisabled (endCommand s) :=
  outputsDisabled_congr h (by simp [endCommand]) (by simp [endCommand]) (by simp [endCommand]) (by simp [endCommand])
    (by simp [endCommand])

/-! ## Construction -/

theorem constructWrites_present :
    constructWrites true = [⟨.ser, false⟩, ⟨.lat, false⟩, ⟨.clk, false⟩] ++ [⟨.oe, true⟩] := rfl

/-- The first three writes of a construction leave the device known, and the fourth disables the outputs. -/
theorem outputsDisabled_construct {s : State} (hp : s.cfg.present.oe = true) (hk : DeviceKnown s)
    (hn : (runWrites (constructWrites true) s).2 = none) : OutputsDisabled (runWrites (constructWrites true) s).1 := by
  rw [constructWrites_present] at hn ⊢
  obtain ⟨hfirst, hlast⟩ := runWrites_append_of_none hn
  rw [hlast] at hn ⊢
  obtain ⟨hf, -⟩ := runWrites_cons_of_none hn
  rw [runWrites_singleton]
  exact outputsDisabled_lineWrite_of_level (by rwa [runWrites_cfg]) (deviceKnown_runWrites hk hfirst) hf
    (level_lineWrite_of_succeeds hf)

/-! ## Commands and words -/

/-- Among the writes of a command other than ENABLE_OUTPUT 0, none writes false to OE. -/
theorem commandWrites_oe_true {i : Instr} (hi : i ≠ .enableOutput false) {s : State} {e : Event}
    (h : e ∈ commandWrites i s) (he : e.line = .oe) : e.value = true := by
  obtain ⟨value, rfl, hp⟩ := commandWrites_oe h he
  rw [commandWrites_enableOutput_present hp, List.mem_singleton] at h
  subst h
  simpa using hi

section

variable {s t : State} {r : Response}

theorem exec_outputsDisabled {i : Instr} (h : exec i s = .next t) (hr : t.responses = s.responses ++ [r])
    (hw : r.status ≠ .lineWriteFailed) (hi : i ≠ .enableOutput false) (hs : OutputsDisabled s) :
    OutputsDisabled t := by
  obtain ⟨ws, st, d, he, hws, hend, -⟩ := exec_ends i s
  cases h.symm.trans he
  have hst : r = ⟨st, d⟩ := by simpa using hr.symm
  have hn : (runWrites ws s).2 = none := hend.resolve_right (by rwa [hst] at hw)
  refine outputsDisabled_respond (runWrites_keeps_of_none (fun e hmem u hf hu => ?_) hs hn) st d
  refine outputsDisabled_lineWrite (fun hoe => ?_) hf hu
  obtain rfl | rfl := hws
  · cases hmem
  · exact commandWrites_oe_true hi hmem hoe

theorem runWord_outputsDisabled {w : CmdWord} (h : runWord w s = .next t) (hr : t.responses = s.responses ++ [r])
    (hw : r.status ≠ .lineWriteFailed) (hi : decode w ≠ .instr (.enableOutput false)) (hs : OutputsDisabled s) :
    OutputsDisabled t := by
  cases hd : decode w with
  | instr i =>
    rw [runWord_of_instr hd] at h
    exact exec_outputsDisabled h hr hw (fun hi' => hi (by rw [hd, hi'])) hs
  | illegal why =>
    rw [runWord_of_illegal hd] at h
    cases h
    exact outputsDisabled_respond hs _ _

end

/-- Settles O56: a construction's last write disables the outputs, and no write but that of ENABLE_OUTPUT 0 ends it. -/
theorem outputsStayDisabledUntilEnabled : Obligations.OutputsStayDisabledUntilEnabled := by
  refine ⟨fun r s t h hok hoe hk => ?_, fun i s t r => exec_outputsDisabled, fun s t w rest r hp h hr hw hi hs => ?_⟩
  · obtain ⟨rfl, hn⟩ := construct_ok h hok
    rw [hoe] at hn ⊢
    exact outputsDisabled_respond (outputsDisabled_construct hoe hk hn) _ _
  · rw [step_of_command hp, thenNext_eq_next] at h
    obtain ⟨u, hu, rfl⟩ := h
    have hr' : u.responses = s.responses ++ [r] := by simpa [endCommand] using hr
    exact outputsDisabled_endCommand (runWord_outputsDisabled (s := { s with pending := rest }) hu hr' hw hi hs)

end Sys2Proof.Machine
end
